-- ==== Sys2Proof/Word.lean ====
section
/-! DEFINITION. The word types of the tum core: bytes, the 16-bit opcode field, the 32-bit immediate field and the
64-bit register, address and instruction word (00_scope.md R8, R13; 30_encoding.md R60). -/

namespace Sys2Proof

/-- A byte: a register selector field, a flag register, a byte of memory or of a stream. -/
abbrev Byte := BitVec 8

/-- The 16-bit opcode field. -/
abbrev Half := BitVec 16

/-- The 32-bit immediate field. -/
abbrev Imm := BitVec 32

/-- A 64-bit word: a general register, the instruction pointer, an instruction word. -/
abbrev Word := BitVec 64

/-- `MEM_SIZE`, the number of bytes of memory (00_scope.md R8): 16 MiB. -/
abbrev memSize : Nat := 16777216

end Sys2Proof
end

