-- ==== Sys2Proof/Config.lean ====
section
/-! DEFINITION. The implementation parameters of 00_scope.md R9, with the spec's defaults, and the one value the spec
leaves open (`eofValue`). A configuration is plain data. It is fixed for a machine; the model carries it in
`State.cfg` (notes/assumptions/1.md), so that a statement about every state covers every reading of the parameters. -/

namespace Sys2Proof

/-- The 24 opcode names of 30_encoding.md R67, the three reserved ones last. -/
inductive Opcode where
  | hlt | nop | cmp | add | sub | mul | div | and | or | xor | not
  | jmp | jeq | jlt | jle | jgt | jge | mov | sto | ior | iow
  | jne | loa | sip
deriving DecidableEq, Repr

/-- Every opcode name, in the order of 30_encoding.md R67. -/
def Opcode.all : List Opcode :=
  [.hlt, .nop, .cmp, .add, .sub, .mul, .div, .and, .or, .xor, .not,
   .jmp, .jeq, .jlt, .jle, .jgt, .jge, .mov, .sto, .ior, .iow, .jne, .loa, .sip]

/-- Which byte of memory holds bits 7:0 of a word (parameter `byteOrder`, 20_memory.md R41, R42). -/
inductive ByteOrder where
  | little | big
deriving DecidableEq, Repr

/-- How `mov` widens its immediate (parameter `immExt`, 43_move_store_io.md R160). -/
inductive ImmExt where
  | zext | sext
deriving DecidableEq, Repr

/-- The condition `jge` tests (parameter `jgeCond`, 42_control_transfer.md R146). -/
inductive JgeCond where
  | asObserved | corrected
deriving DecidableEq, Repr

/-- The bit positions of `AF` (00_scope.md R9, 10_state.md R27). -/
structure AfBits where
  e : Fin 8
  g : Fin 8
  l : Fin 8
deriving DecidableEq, Repr

/-- The bit positions of `EF` (00_scope.md R9, 10_state.md R29). -/
structure EfBits where
  addr     : Fin 8
  unkinsn  : Fin 8
  badreg   : Fin 8
  misalign : Fin 8
deriving DecidableEq, Repr

/-- The numeric value of each opcode (parameter `opcodeValue`, 30_encoding.md R67). -/
structure OpcodeMap where
  hlt : Half
  nop : Half
  cmp : Half
  add : Half
  sub : Half
  mul : Half
  div : Half
  and : Half
  or  : Half
  xor : Half
  not : Half
  jmp : Half
  jeq : Half
  jlt : Half
  jle : Half
  jgt : Half
  jge : Half
  mov : Half
  sto : Half
  ior : Half
  iow : Half
  jne : Half
  loa : Half
  sip : Half
deriving DecidableEq, Repr

/-- The value a map gives to a name. -/
def OpcodeMap.valueOf (m : OpcodeMap) : Opcode → Half
  | .hlt => m.hlt
  | .nop => m.nop
  | .cmp => m.cmp
  | .add => m.add
  | .sub => m.sub
  | .mul => m.mul
  | .div => m.div
  | .and => m.and
  | .or  => m.or
  | .xor => m.xor
  | .not => m.not
  | .jmp => m.jmp
  | .jeq => m.jeq
  | .jlt => m.jlt
  | .jle => m.jle
  | .jgt => m.jgt
  | .jge => m.jge
  | .mov => m.mov
  | .sto => m.sto
  | .ior => m.ior
  | .iow => m.iow
  | .jne => m.jne
  | .loa => m.loa
  | .sip => m.sip

/-- The parameters a model takes (00_scope.md R9), but for the open `eofValue`. -/
structure Config where
  byteOrder      : ByteOrder
  opcodes        : OpcodeMap
  af             : AfBits
  ef             : EfBits
  immExt         : ImmExt
  jgeCond        : JgeCond
  stoImplemented : Bool
deriving DecidableEq, Repr

/-- The opcode values of 30_encoding.md R67. -/
def OpcodeMap.default : OpcodeMap where
  hlt := 0x0000#16
  nop := 0x0001#16
  cmp := 0x0002#16
  add := 0x0003#16
  sub := 0x0004#16
  mul := 0x0005#16
  div := 0x0006#16
  and := 0x0007#16
  or  := 0x0008#16
  xor := 0x0009#16
  not := 0x000A#16
  jmp := 0x000B#16
  jeq := 0x000C#16
  jlt := 0x000D#16
  jle := 0x000E#16
  jgt := 0x000F#16
  jge := 0x0010#16
  mov := 0x0011#16
  sto := 0x0012#16
  ior := 0x0013#16
  iow := 0x0014#16
  jne := 0x0015#16
  loa := 0x0016#16
  sip := 0x0017#16

/-- The default column of 00_scope.md R9. -/
def Config.default : Config where
  byteOrder      := .little
  opcodes        := OpcodeMap.default
  af             := { e := 0, g := 1, l := 2 }
  ef             := { addr := 0, unkinsn := 1, badreg := 2, misalign := 3 }
  immExt         := .zext
  jgeCond        := .asObserved
  stoImplemented := true

/-- The value `ior` gives at end-of-stream (parameter `eofValue`, OPEN in 00_scope.md R9; 43_move_store_io.md R167):
a free value, one for the machine (notes/assumptions/5.md). -/
opaque Config.eofValue : Word

end Sys2Proof
end

