-- ==== Sys2Proof/Syntax.lean ====
section
/-! DEFINITION. The instructions as data: one constructor for each row of spec/opcode_table.json. Every instruction has
the one format of 30_encoding.md R60, so every constructor carries all three of its fields, the ones the operation
does not read too (R62): the two register masks as they stand in the word (the decoder does not resolve them, R66) and
the immediate. -/

namespace Sys2Proof

/-- The eight general registers (10_state.md R21, 00_scope.md R19). -/
inductive Reg where
  | gp0 | gp1 | gp2 | gp3 | gp4 | gp5 | gp6 | gp7
deriving DecidableEq, Repr

/-- Every general register, in order. -/
def Reg.all : List Reg := [.gp0, .gp1, .gp2, .gp3, .gp4, .gp5, .gp6, .gp7]

/-- The operand forms of 30_encoding.md R62; `reserved` for the opcodes without an operation (R67). -/
inductive Form where
  | n | r | rr | ri | reserved
deriving DecidableEq, Repr

/-- The operand form of each opcode (30_encoding.md R67). -/
def Opcode.form : Opcode → Form
  | .hlt | .nop => .n
  | .cmp | .add | .sub | .mul | .div | .and | .or | .xor => .rr
  | .not | .jmp | .jeq | .jlt | .jle | .jgt | .jge | .ior | .iow => .r
  | .mov | .sto => .ri
  | .jne | .loa | .sip => .reserved

/-- A form reads `reg1` (30_encoding.md R62). -/
def Form.readsReg1 : Form → Bool
  | .r | .rr | .ri => true
  | .n | .reserved => false

/-- A form reads `reg2` (30_encoding.md R62). -/
def Form.readsReg2 : Form → Bool
  | .rr => true
  | .n | .r | .ri | .reserved => false

/-- A form reads `imm` (30_encoding.md R62). -/
def Form.readsImm : Form → Bool
  | .ri => true
  | .n | .r | .rr | .reserved => false

/-- An instruction: its operation and the fields of its word. -/
inductive Instr where
  | hlt (reg1 reg2 : Byte) (imm : Imm)
  | nop (reg1 reg2 : Byte) (imm : Imm)
  | cmp (reg1 reg2 : Byte) (imm : Imm)
  | add (reg1 reg2 : Byte) (imm : Imm)
  | sub (reg1 reg2 : Byte) (imm : Imm)
  | mul (reg1 reg2 : Byte) (imm : Imm)
  | div (reg1 reg2 : Byte) (imm : Imm)
  | and (reg1 reg2 : Byte) (imm : Imm)
  | or  (reg1 reg2 : Byte) (imm : Imm)
  | xor (reg1 reg2 : Byte) (imm : Imm)
  | not (reg1 reg2 : Byte) (imm : Imm)
  | jmp (reg1 reg2 : Byte) (imm : Imm)
  | jeq (reg1 reg2 : Byte) (imm : Imm)
  | jlt (reg1 reg2 : Byte) (imm : Imm)
  | jle (reg1 reg2 : Byte) (imm : Imm)
  | jgt (reg1 reg2 : Byte) (imm : Imm)
  | jge (reg1 reg2 : Byte) (imm : Imm)
  | mov (reg1 reg2 : Byte) (imm : Imm)
  | sto (reg1 reg2 : Byte) (imm : Imm)
  | ior (reg1 reg2 : Byte) (imm : Imm)
  | iow (reg1 reg2 : Byte) (imm : Imm)
  | jne (reg1 reg2 : Byte) (imm : Imm)
  | loa (reg1 reg2 : Byte) (imm : Imm)
  | sip (reg1 reg2 : Byte) (imm : Imm)
deriving DecidableEq, Repr

/-- The four fields of an instruction word (30_encoding.md R60). -/
structure Fields where
  opcode : Half
  reg1   : Byte
  reg2   : Byte
  imm    : Imm
deriving DecidableEq, Repr

/-- The opcode name of an instruction. -/
def Instr.opcode : Instr → Opcode
  | .hlt _ _ _ => .hlt
  | .nop _ _ _ => .nop
  | .cmp _ _ _ => .cmp
  | .add _ _ _ => .add
  | .sub _ _ _ => .sub
  | .mul _ _ _ => .mul
  | .div _ _ _ => .div
  | .and _ _ _ => .and
  | .or  _ _ _ => .or
  | .xor _ _ _ => .xor
  | .not _ _ _ => .not
  | .jmp _ _ _ => .jmp
  | .jeq _ _ _ => .jeq
  | .jlt _ _ _ => .jlt
  | .jle _ _ _ => .jle
  | .jgt _ _ _ => .jgt
  | .jge _ _ _ => .jge
  | .mov _ _ _ => .mov
  | .sto _ _ _ => .sto
  | .ior _ _ _ => .ior
  | .iow _ _ _ => .iow
  | .jne _ _ _ => .jne
  | .loa _ _ _ => .loa
  | .sip _ _ _ => .sip

/-- The instruction with a given operation and fields. -/
def Instr.build (op : Opcode) (reg1 reg2 : Byte) (imm : Imm) : Instr :=
  match op with
  | .hlt => .hlt reg1 reg2 imm
  | .nop => .nop reg1 reg2 imm
  | .cmp => .cmp reg1 reg2 imm
  | .add => .add reg1 reg2 imm
  | .sub => .sub reg1 reg2 imm
  | .mul => .mul reg1 reg2 imm
  | .div => .div reg1 reg2 imm
  | .and => .and reg1 reg2 imm
  | .or  => .or  reg1 reg2 imm
  | .xor => .xor reg1 reg2 imm
  | .not => .not reg1 reg2 imm
  | .jmp => .jmp reg1 reg2 imm
  | .jeq => .jeq reg1 reg2 imm
  | .jlt => .jlt reg1 reg2 imm
  | .jle => .jle reg1 reg2 imm
  | .jgt => .jgt reg1 reg2 imm
  | .jge => .jge reg1 reg2 imm
  | .mov => .mov reg1 reg2 imm
  | .sto => .sto reg1 reg2 imm
  | .ior => .ior reg1 reg2 imm
  | .iow => .iow reg1 reg2 imm
  | .jne => .jne reg1 reg2 imm
  | .loa => .loa reg1 reg2 imm
  | .sip => .sip reg1 reg2 imm

/-- The `reg1` mask of an instruction. -/
def Instr.reg1 : Instr → Byte
  | .hlt a _ _ | .nop a _ _ | .cmp a _ _ | .add a _ _ | .sub a _ _ | .mul a _ _ | .div a _ _ | .and a _ _
  | .or a _ _ | .xor a _ _ | .not a _ _ | .jmp a _ _ | .jeq a _ _ | .jlt a _ _ | .jle a _ _ | .jgt a _ _
  | .jge a _ _ | .mov a _ _ | .sto a _ _ | .ior a _ _ | .iow a _ _ | .jne a _ _ | .loa a _ _ | .sip a _ _ => a

/-- The `reg2` mask of an instruction. -/
def Instr.reg2 : Instr → Byte
  | .hlt _ b _ | .nop _ b _ | .cmp _ b _ | .add _ b _ | .sub _ b _ | .mul _ b _ | .div _ b _ | .and _ b _
  | .or _ b _ | .xor _ b _ | .not _ b _ | .jmp _ b _ | .jeq _ b _ | .jlt _ b _ | .jle _ b _ | .jgt _ b _
  | .jge _ b _ | .mov _ b _ | .sto _ b _ | .ior _ b _ | .iow _ b _ | .jne _ b _ | .loa _ b _ | .sip _ b _ => b

/-- The immediate field of an instruction. -/
def Instr.imm : Instr → Imm
  | .hlt _ _ c | .nop _ _ c | .cmp _ _ c | .add _ _ c | .sub _ _ c | .mul _ _ c | .div _ _ c | .and _ _ c
  | .or _ _ c | .xor _ _ c | .not _ _ c | .jmp _ _ c | .jeq _ _ c | .jlt _ _ c | .jle _ _ c | .jgt _ _ c
  | .jge _ _ c | .mov _ _ c | .sto _ _ c | .ior _ _ c | .iow _ _ c | .jne _ _ c | .loa _ _ c | .sip _ _ c => c

/-- The operand form of an instruction. -/
def Instr.form (i : Instr) : Form := i.opcode.form

/-- The canonical form of an instruction: its unread fields are zero (30_encoding.md R71). -/
def Instr.canonicalise (i : Instr) : Instr :=
  Instr.build i.opcode
    (if i.form.readsReg1 then i.reg1 else 0)
    (if i.form.readsReg2 then i.reg2 else 0)
    (if i.form.readsImm then i.imm else 0)

end Sys2Proof
end

