-- ==== Sys2Proof/WellFormed.lean ====
section
/-! DEFINITION. Which instructions and which configurations are well formed. An ill-formed instruction still decodes
and executes: a read field that is not one-hot raises BADREG (30_encoding.md R70); well-formedness says that it does
not. A configuration is well formed when it is one 00_scope.md R9 allows. -/

namespace Sys2Proof

/-- Exactly one bit of the byte is set (00_scope.md R17, "One-hot register mask"). -/
def oneHot (m : Byte) : Bool := m != 0 && (m &&& (m - 1)) == 0

/-- The register fields the form reads are one-hot masks (30_encoding.md R66, R70). -/
def Instr.wellFormed (i : Instr) : Bool :=
  (!i.form.readsReg1 || oneHot i.reg1) && (!i.form.readsReg2 || oneHot i.reg2)

/-- The word is canonical: its read register fields are one-hot and its unread fields are zero (30_encoding.md R71). -/
def Instr.canonical (i : Instr) : Bool :=
  i.wellFormed
    && (i.form.readsReg1 || i.reg1 == 0)
    && (i.form.readsReg2 || i.reg2 == 0)
    && (i.form.readsImm || i.imm == 0)

/-- The opcode has an operation: it is not one of the three reserved ones (30_encoding.md R67). -/
def Opcode.implemented (op : Opcode) : Bool := op.form != .reserved

/-- The map gives no two names one value: "any injective map of the 24 opcode names" (00_scope.md R9). -/
def OpcodeMap.injective (m : OpcodeMap) : Bool := decide (Opcode.all.map m.valueOf).Nodup

/-- "any three distinct bits" (00_scope.md R9). -/
def AfBits.distinct (b : AfBits) : Bool := decide [b.e, b.g, b.l].Nodup

/-- "any four distinct bits" (00_scope.md R9). -/
def EfBits.distinct (b : EfBits) : Bool := decide [b.addr, b.unkinsn, b.badreg, b.misalign].Nodup

/-- A configuration 00_scope.md R9 allows. -/
def Config.wf (c : Config) : Bool := c.opcodes.injective && c.af.distinct && c.ef.distinct

end Sys2Proof
end

