-- ==== Sys2Proof/Decode.lean ====
section
/-! DEFINITION. The codec (30_encoding.md R60 to R72): the register-mask code, the fields of a word, the byte order of
a word, the decoder, total on any bytes and rejecting by name, and after it the encoder. The spec's own
`decode` (R65), which never rejects, is `splitFields`; `decodeFields` is the dispatch on its opcode (R69). -/

namespace Sys2Proof

/-! ### Register masks -/

/-- The mask that names a register: `1 << i` names `gp<i>` (10_state.md R22). -/
def Reg.mask : Reg → Byte
  | .gp0 => 0x01#8
  | .gp1 => 0x02#8
  | .gp2 => 0x04#8
  | .gp3 => 0x08#8
  | .gp4 => 0x10#8
  | .gp5 => 0x20#8
  | .gp6 => 0x40#8
  | .gp7 => 0x80#8

/-- `resolve` of 30_encoding.md R66: the register a mask names, or none (the spec's `BAD`). -/
def resolve (m : Byte) : Option Reg :=
  if m = 0x01#8 then some .gp0
  else if m = 0x02#8 then some .gp1
  else if m = 0x04#8 then some .gp2
  else if m = 0x08#8 then some .gp3
  else if m = 0x10#8 then some .gp4
  else if m = 0x20#8 then some .gp5
  else if m = 0x40#8 then some .gp6
  else if m = 0x80#8 then some .gp7
  else none

/-! ### A word and its bytes -/

/-- Byte `k` of a word, byte 0 the least significant. -/
def byteAt (w : Word) (k : Nat) : Byte := w.extractLsb' (8 * k) 8

/-- The eight bytes of a word, the lowest address first (20_memory.md R42). -/
def wordBytes (o : ByteOrder) (w : Word) : List Byte :=
  match o with
  | .little => [byteAt w 0, byteAt w 1, byteAt w 2, byteAt w 3, byteAt w 4, byteAt w 5, byteAt w 6, byteAt w 7]
  | .big    => [byteAt w 7, byteAt w 6, byteAt w 5, byteAt w 4, byteAt w 3, byteAt w 2, byteAt w 1, byteAt w 0]

/-- The word whose bytes, the lowest address first, are `b0` to `b7` (20_memory.md R42). -/
def joinBytes (o : ByteOrder) (b0 b1 b2 b3 b4 b5 b6 b7 : Byte) : Word :=
  match o with
  | .little => b7 ++ b6 ++ b5 ++ b4 ++ b3 ++ b2 ++ b1 ++ b0
  | .big    => b0 ++ b1 ++ b2 ++ b3 ++ b4 ++ b5 ++ b6 ++ b7

/-! ### The fields of a word -/

/-- `decode` of 30_encoding.md R65: pure and total over every word. -/
def splitFields (w : Word) : Fields where
  opcode := w.extractLsb' 16 16
  reg1   := w.extractLsb' 8 8
  reg2   := w.extractLsb' 0 8
  imm    := w.extractLsb' 32 32

/-- `encode` of 30_encoding.md R64: packs the fields and validates nothing. -/
def joinFields (f : Fields) : Word := f.imm ++ f.opcode ++ f.reg1 ++ f.reg2

/-! ### Dispatch on the opcode -/

/-- Why bytes are no instruction. -/
inductive DecodeError where
  /-- Fewer than eight bytes were given: every instruction is eight bytes long (30_encoding.md R61). -/
  | truncated
  /-- The opcode value is not in the enumeration (44_system.md R183). -/
  | noSuchOpcode (value : Half)
deriving DecidableEq, Repr

/-- The opcode name a value stands for, under the configuration's map (30_encoding.md R67, R69). -/
def Config.opcodeOf (c : Config) (v : Half) : Option Opcode :=
  Opcode.all.find? fun op => c.opcodes.valueOf op == v

/-- The instruction with the given fields: the opcode alone selects the operation (30_encoding.md R69). -/
def decodeFields (c : Config) (f : Fields) : Except DecodeError Instr :=
  match c.opcodeOf f.opcode with
  | some op => .ok (Instr.build op f.reg1 f.reg2 f.imm)
  | none => .error (.noSuchOpcode f.opcode)

/-- The instruction a word stands for. -/
def decode (c : Config) (w : Word) : Except DecodeError Instr := decodeFields c (splitFields w)

/-- The instruction at the head of a list of bytes, and the bytes after it (30_encoding.md R61, R73). -/
def decodeBytes (c : Config) : List Byte → Except DecodeError (Instr × List Byte)
  | b0 :: b1 :: b2 :: b3 :: b4 :: b5 :: b6 :: b7 :: rest =>
    match decode c (joinBytes c.byteOrder b0 b1 b2 b3 b4 b5 b6 b7) with
    | .ok i => .ok (i, rest)
    | .error e => .error e
  | _ => .error .truncated

/-- The decoder on a word given as a number, its bits numbered as spec/opcode_table.json numbers them, under the
default configuration: bits at and above `nbits` are 0, the word is laid out in the byte order and its bytes decoded
(notes/assumptions/19.md). -/
def decodeTableWord (nbits w : Nat) : Option Instr :=
  match decodeBytes Config.default (wordBytes Config.default.byteOrder (BitVec.ofNat 64 (w % 2 ^ nbits))) with
  | .ok (i, _) => some i
  | .error _ => none

/-! ### The encoder -/

/-- The fields of an instruction's word (30_encoding.md R60, R64, R67). -/
def Instr.fields (c : Config) (i : Instr) : Fields where
  opcode := c.opcodes.valueOf i.opcode
  reg1   := i.reg1
  reg2   := i.reg2
  imm    := i.imm

/-- The word of an instruction. -/
def encode (c : Config) (i : Instr) : Word := joinFields (i.fields c)

/-- The eight bytes of an instruction as they stand in the image and in memory (30_encoding.md R73). -/
def encodeBytes (c : Config) (i : Instr) : List Byte := wordBytes c.byteOrder (encode c i)

end Sys2Proof
end

