-- ==== Sys2Proof/Machine/State.lean ====
section
/-! DEFINITION. The state of the core (10_state.md R20), the environment's two streams (R35), the reasons a step can
stop, and the state after reset (R39, 70_reset_and_hazards.md R230). -/

namespace Sys2Proof.Machine

/-- The eight general registers (10_state.md R21). -/
structure RegFile where
  gp0 : Word
  gp1 : Word
  gp2 : Word
  gp3 : Word
  gp4 : Word
  gp5 : Word
  gp6 : Word
  gp7 : Word
deriving DecidableEq, Repr

/-- Why a run reached behaviour the source leaves undefined (10_state.md R32). -/
inductive UndefReason where
  | divByZero
deriving DecidableEq, Repr

/-- Memory as address and byte pairs: addresses strictly rising and below `memSize`, no zero byte listed, an unlisted
address reading 0 (10_state.md R34, R39). -/
abbrev Memory := List Host.Cell

/-- The state of the machine. -/
structure State where
  /-- The parameters of 00_scope.md R9, fixed for the machine: the model's own field (notes/assumptions/1.md). -/
  cfg        : Config
  /-- `gp0` to `gp7` (R21). -/
  regs       : RegFile
  /-- The instruction pointer `IP` (R24). -/
  ip         : Word
  /-- The arithmetic flag register `AF` (R27). -/
  af         : Byte
  /-- The exception flag register `EF` (R29). -/
  ef         : Byte
  /-- The halt flag `HALT` (R31). -/
  halt       : Bool
  /-- The undefined-stop mark `UNDEF` (R32). -/
  undef      : Option UndefReason
  /-- The memory `M` (R34). -/
  mem        : Memory
  /-- The input bytes offered and not yet taken, the next one first (R35). -/
  input      : List Byte
  /-- The environment has ended the input stream (20_memory.md R52). -/
  inputEnded : Bool
  /-- The output bytes, the first written first (R35). -/
  output     : List Byte
deriving DecidableEq, Repr

/-- Why a step answers no next state though the instruction set names none. -/
inductive Fault where
  /-- Raised by the step of a core whose status is UNDEFINED: the run has reached behaviour the source leaves
  undefined, and no claim may pass it (00_scope.md R15, 60_exceptions.md R210). Safe: the machine stops. -/
  | undefinedStop (reason : UndefReason)
deriving DecidableEq, Repr

/-- Why an instruction has no meaning in the model. -/
inductive Refusal where
  /-- Raised by no arm of `exec`: every instruction has its meaning. Safe. -/
  | notModelled (mnemonic : String)
deriving DecidableEq, Repr

/-- What a meaning answers. -/
abbrev Result := Host.Outcome State Fault Refusal

/-- Every general register 0. -/
def RegFile.zero : RegFile := ⟨0#64, 0#64, 0#64, 0#64, 0#64, 0#64, 0#64, 0#64⟩

/-- The state after reset under a configuration: every register, flag and memory byte 0, `UNDEF` empty (10_state.md R39,
70_reset_and_hazards.md R230), the streams empty and the input not ended (notes/assumptions/7.md). -/
def State.resetWith (c : Config) : State where
  cfg        := c
  regs       := RegFile.zero
  ip         := 0#64
  af         := 0#8
  ef         := 0#8
  halt       := false
  undef      := none
  mem        := []
  input      := []
  inputEnded := false
  output     := []

/-- The state after reset, under the default configuration of 00_scope.md R9. -/
def State.reset : State := State.resetWith Config.default

end Sys2Proof.Machine
end

