-- ==== Sys2Proof/Machine/Flags.lean ====
section
/-! DEFINITION. The flag computations: the bits of `AF` and `EF`, the outcome of a compare, the condition of each
jump, and the access check, which picks an `EF` bit. -/

namespace Sys2Proof.Machine

/-- A byte with one bit set. -/
def bitMask (p : Fin 8) : Byte := 1#8 <<< p.val

/-! ### `AF` -/

/-- The mask of `E`, equal (10_state.md R27). -/
def eqMask (c : Config) : Byte := bitMask c.af.e

/-- The mask of `G`, greater (10_state.md R27). -/
def gtMask (c : Config) : Byte := bitMask c.af.g

/-- The mask of `L`, lesser (10_state.md R27). -/
def ltMask (c : Config) : Byte := bitMask c.af.l

/-- The bit a compare of `a` with `b` sets, unsigned (41_alu.md R120). -/
def compareMask (c : Config) (a b : Word) : Byte :=
  if a = b then eqMask c
  else if b < a then gtMask c
  else ltMask c

/-- The jumps that test `AF` (42_control_transfer.md R140). -/
inductive JumpTest where
  | eq | lt | le | gt | ge
deriving DecidableEq, Repr

/-- The mask `cond` each conditional jump tests (42_control_transfer.md R140, R146). -/
def condMask (c : Config) : JumpTest → Byte
  | .eq => eqMask c
  | .lt => ltMask c
  | .le => eqMask c ||| ltMask c
  | .gt => gtMask c
  | .ge =>
    match c.jgeCond with
    | .asObserved => eqMask c ||| ltMask c
    | .corrected => gtMask c ||| eqMask c

/-- A conditional jump is taken when `(AF AND cond) != 0` (42_control_transfer.md R140). -/
def jumpTaken (c : Config) (t : JumpTest) (af : Byte) : Bool := (af &&& condMask c t) != 0#8

/-! ### `EF` -/

/-- The four fault classes (60_exceptions.md R201). -/
inductive FaultClass where
  | addr | unkinsn | badreg | misalign
deriving DecidableEq, Repr

/-- The `EF` bit of a fault class (60_exceptions.md R201). -/
def faultMask (c : Config) : FaultClass → Byte
  | .addr => bitMask c.ef.addr
  | .unkinsn => bitMask c.ef.unkinsn
  | .badreg => bitMask c.ef.badreg
  | .misalign => bitMask c.ef.misalign

/-- `Check` of 20_memory.md R45: range first, alignment second; none when the address passes. -/
def checkAddr (a : Word) : Option FaultClass :=
  if memSize - 8 < a.toNat then some .addr
  else if a.extractLsb' 0 3 ≠ 0#3 then some .misalign
  else none

end Sys2Proof.Machine
end

