-- ==== Sys2Proof/Machine/Operands.lean ====
section
/-! DEFINITION. The operand forms (30_encoding.md R62): the registers a form resolves, in order, and the two ways an
immediate is read. -/

namespace Sys2Proof.Machine

/-- The registers of a two-register form: `reg1` is resolved before `reg2`, and none means the first that fails ended
the resolution (40_execution_cycle.md R106, R107). -/
def resolvePair (m1 m2 : Byte) : Option (Reg × Reg) :=
  match resolve m1 with
  | none => none
  | some r1 =>
    match resolve m2 with
    | none => none
    | some r2 => some (r1, r2)

/-- `mov`'s immediate, widened by `immExt` (30_encoding.md R63, 43_move_store_io.md R160). -/
def movImm (c : Config) (imm : Imm) : Word :=
  match c.immExt with
  | .zext => imm.setWidth 64
  | .sext => imm.signExtend 64

/-- `sto`'s effective address: the immediate, always zero-extended (30_encoding.md R63, 43_move_store_io.md R162). -/
def stoAddr (imm : Imm) : Word := imm.setWidth 64

end Sys2Proof.Machine
end

