-- ==== Sys2Proof/Machine/Ops.lean ====
section
/-! DEFINITION. The named operations over registers, memory, flags and streams, and the frame every operation body
shares: advancing `IP`, resolving the register fields, raising a fault (00_scope.md R14, R15; 40_execution_cycle.md
R101 to R108). Every read and write of the state goes through this file. -/

namespace Sys2Proof.Machine

/-! ### General registers -/

/-- The value of a register. -/
def RegFile.read (f : RegFile) : Reg → Word
  | .gp0 => f.gp0
  | .gp1 => f.gp1
  | .gp2 => f.gp2
  | .gp3 => f.gp3
  | .gp4 => f.gp4
  | .gp5 => f.gp5
  | .gp6 => f.gp6
  | .gp7 => f.gp7

/-- The register file with one register written. None is hard-wired (10_state.md R21). -/
def RegFile.write (f : RegFile) (r : Reg) (v : Word) : RegFile :=
  match r with
  | .gp0 => { f with gp0 := v }
  | .gp1 => { f with gp1 := v }
  | .gp2 => { f with gp2 := v }
  | .gp3 => { f with gp3 := v }
  | .gp4 => { f with gp4 := v }
  | .gp5 => { f with gp5 := v }
  | .gp6 => { f with gp6 := v }
  | .gp7 => { f with gp7 := v }

/-! ### Memory -/

/-- The byte at an address: 0 where none is listed (10_state.md R39). -/
def Memory.read : Memory → Nat → Byte
  | [], _ => 0#8
  | (k, b) :: m, a => if k = a then b else Memory.read m a

/-- Memory with one byte written. Writing 0 removes the entry, so that equal memories are equal lists. -/
def Memory.write : Memory → Nat → Byte → Memory
  | [], a, v => if v = 0#8 then [] else [(a, v)]
  | (k, b) :: m, a, v =>
    if k < a then (k, b) :: Memory.write m a v
    else if k = a then (if v = 0#8 then m else (a, v) :: m)
    else if v = 0#8 then (k, b) :: m
    else (a, v) :: (k, b) :: m

/-- Every entry's address is at least `lo`, above the one before it and below `memSize`, and no entry is 0. -/
def Memory.wfFrom : Nat → Memory → Bool
  | _, [] => true
  | lo, (k, b) :: m => decide (lo ≤ k) && decide (k < memSize) && b != 0#8 && Memory.wfFrom (k + 1) m

/-- The canonical form of memory. -/
def Memory.wf (m : Memory) : Bool := Memory.wfFrom 0 m

/-- Bytes written one after another from an address up. -/
def Memory.writeBytes (m : Memory) (a : Nat) : List Byte → Memory
  | [] => m
  | b :: bs => Memory.writeBytes (Memory.write m a b) (a + 1) bs

/-- `MemRead(a, 8)` of 20_memory.md R42. -/
def Memory.readWord (o : ByteOrder) (m : Memory) (a : Nat) : Word :=
  joinBytes o (Memory.read m a) (Memory.read m (a + 1)) (Memory.read m (a + 2)) (Memory.read m (a + 3))
    (Memory.read m (a + 4)) (Memory.read m (a + 5)) (Memory.read m (a + 6)) (Memory.read m (a + 7))

/-- `MemWrite(a, 8, v)` of 20_memory.md R42. -/
def Memory.writeWord (o : ByteOrder) (m : Memory) (a : Nat) (v : Word) : Memory :=
  Memory.writeBytes m a (wordBytes o v)

/-! ### One register of the state at a time -/

/-- Read a general register. -/
def State.readReg (s : State) (r : Reg) : Word := s.regs.read r

/-- Write a general register. -/
def State.writeReg (s : State) (r : Reg) (v : Word) : State := { s with regs := s.regs.write r v }

/-- Write `IP` (10_state.md R25: any value may be written). -/
def State.setIp (s : State) (v : Word) : State := { s with ip := v }

/-- OR a bit into `AF`: the only write of `AF` (10_state.md R28). -/
def State.orAf (s : State) (m : Byte) : State := { s with af := s.af ||| m }

/-- OR a bit into `EF`: the only write of `EF` (10_state.md R30). -/
def State.orEf (s : State) (m : Byte) : State := { s with ef := s.ef ||| m }

/-- Set `HALT` (10_state.md R31). -/
def State.setHalt (s : State) : State := { s with halt := true }

/-- Set `UNDEF` (10_state.md R32). -/
def State.setUndef (s : State) (r : UndefReason) : State := { s with undef := some r }

/-- Replace memory. -/
def State.setMem (s : State) (m : Memory) : State := { s with mem := m }

/-- Replace the input bytes not yet taken. -/
def State.setInput (s : State) (l : List Byte) : State := { s with input := l }

/-- `OutWrite(b)`: append a byte to the output stream; it never blocks and never fails (20_memory.md R53). -/
def State.outWrite (s : State) (b : Byte) : State := { s with output := s.output ++ [b] }

/-! ### The frame of a tick -/

/-- The status the core reports, tested in the order of 10_state.md R33. -/
inductive Status where
  | running | halted | faulted | undefined
deriving DecidableEq, Repr

/-- The status (10_state.md R33). -/
def State.status (s : State) : Status :=
  if s.undef.isSome then .undefined
  else if s.ef ≠ 0#8 then .faulted
  else if s.halt then .halted
  else .running

/-- `IP <- IP + 8` (40_execution_cycle.md R103). -/
def State.advanceIp (s : State) : State := s.setIp (s.ip + 8#64)

/-- `raise Fault(F)`, the one way a fault is taken: OR the class's bit into `EF`; the tick does nothing more
(00_scope.md R15, 60_exceptions.md R208). Nothing is saved and control goes nowhere, so there is no return beside it:
no instruction clears `EF` (R209). -/
def State.raise (s : State) (f : FaultClass) : State := s.orEf (faultMask s.cfg f)

/-- `stop Undefined(reason)` (00_scope.md R15, 60_exceptions.md R210). -/
def State.stopUndefined (s : State) (r : UndefReason) : State := s.setUndef r

/-- Dispatch finds no handler: `IP` keeps its advanced value and UNKINSN is raised (40_execution_cycle.md R105). -/
def State.unknownInstruction (s : State) : State := s.advanceIp.raise .unkinsn

/-- A read register field is `BAD`: `IP` keeps its advanced value and BADREG is raised (40_execution_cycle.md R107). -/
def State.badRegister (s : State) : State := s.advanceIp.raise .badreg

/-- What fetching gives. -/
inductive FetchResult where
  | fault (f : FaultClass)
  | word (w : Word)
deriving DecidableEq, Repr

/-- The fetch: the access check of `IP`, then the eight bytes there (40_execution_cycle.md R101 to R103). -/
def State.fetch (s : State) : FetchResult :=
  match checkAddr s.ip with
  | some f => .fault f
  | none => .word (Memory.readWord s.cfg.byteOrder s.mem s.ip.toNat)

/-- Form N: no field is read. The body runs with `IP` advanced. -/
def withN (s : State) (body : State → Result) : Result := body s.advanceIp

/-- Forms R and RI: `reg1` is resolved, and the body runs with `IP` advanced. -/
def withR (m1 : Byte) (s : State) (body : Reg → State → Result) : Result :=
  match resolve m1 with
  | some r1 => body r1 s.advanceIp
  | none => .next s.badRegister

/-- Form RR: `reg1` then `reg2` are resolved, and the body runs with `IP` advanced. -/
def withRR (m1 m2 : Byte) (s : State) (body : Reg → Reg → State → Result) : Result :=
  match resolvePair m1 m2 with
  | some (r1, r2) => body r1 r2 s.advanceIp
  | none => .next s.badRegister

/-- The shape of `add`, `sub`, `mul`, `and`, `or` and `xor`: `x[r1] <- f(x[r1], x[r2])`, both operands read before the
write (40_execution_cycle.md R114). -/
def binaryOp (m1 m2 : Byte) (f : Word → Word → Word) (s : State) : Result :=
  withRR m1 m2 s fun r1 r2 s => .next (s.writeReg r1 (f (s.readReg r1) (s.readReg r2)))

/-- The shape of the conditional jumps (42_control_transfer.md R140): `IP` already holds the next instruction's
address, and a taken jump overwrites it. -/
def conditionalJump (m1 : Byte) (t : JumpTest) (s : State) : Result :=
  withR m1 s fun r1 s => .next (if jumpTaken s.cfg t s.af then s.setIp (s.readReg r1) else s)

/-! ### The input stream -/

/-- What `InRead()` finds (20_memory.md R52). -/
inductive InItem where
  /-- A byte, and the bytes left after it. -/
  | byte (b : Byte) (rest : List Byte)
  /-- The stream has ended. It is not consumed: every later read finds it again. -/
  | eof
  /-- Nothing yet: the reader holds. -/
  | nothingYet
deriving DecidableEq, Repr

/-- The next item of the input stream (20_memory.md R52). -/
def State.inRead (s : State) : InItem :=
  match s.input with
  | b :: rest => .byte b rest
  | [] => if s.inputEnded then .eof else .nothingYet

/-! ### Placing an instruction -/

/-- The state with a word stored where the next fetch reads, if that address passes the access check. -/
def State.placeWord (s : State) (w : Word) : State :=
  match checkAddr s.ip with
  | some _ => s
  | none => s.setMem (Memory.writeWord s.cfg.byteOrder s.mem s.ip.toNat w)

end Sys2Proof.Machine
end

