-- ==== Sys2Proof/Machine/Alu.lean ====
section
/-! DEFINITION. The ALU family: `cmp`, `add`, `sub`, `mul`, `div`, `and`, `or`, `xor`, `not` (41_alu.md). -/

namespace Sys2Proof.Machine

/-- `cmp` (41_alu.md R120): unsigned compare, OR-accumulated into `AF`. -/
def execCmp (reg1 reg2 : Byte) (s : State) : Result :=
  withRR reg1 reg2 s fun r1 r2 s => .next (s.orAf (compareMask s.cfg (s.readReg r1) (s.readReg r2)))

/-- `add` (41_alu.md R121): modulo 2^64. -/
def execAdd (reg1 reg2 : Byte) (s : State) : Result := binaryOp reg1 reg2 (fun a b => a + b) s

/-- `sub` (41_alu.md R122): modulo 2^64. -/
def execSub (reg1 reg2 : Byte) (s : State) : Result := binaryOp reg1 reg2 (fun a b => a - b) s

/-- `mul` (41_alu.md R123): the low 64 bits of the product. -/
def execMul (reg1 reg2 : Byte) (s : State) : Result := binaryOp reg1 reg2 (fun a b => a * b) s

/-- `div` (41_alu.md R124): the unsigned quotient; a zero divisor is the undefined stop, with no register written. -/
def execDiv (reg1 reg2 : Byte) (s : State) : Result :=
  withRR reg1 reg2 s fun r1 r2 s =>
    if s.readReg r2 = 0#64 then .next (s.stopUndefined .divByZero)
    else .next (s.writeReg r1 (s.readReg r1 / s.readReg r2))

/-- `and` (41_alu.md R125). -/
def execAnd (reg1 reg2 : Byte) (s : State) : Result := binaryOp reg1 reg2 (fun a b => a &&& b) s

/-- `or` (41_alu.md R126). -/
def execOr (reg1 reg2 : Byte) (s : State) : Result := binaryOp reg1 reg2 (fun a b => a ||| b) s

/-- `xor` (41_alu.md R127). -/
def execXor (reg1 reg2 : Byte) (s : State) : Result := binaryOp reg1 reg2 (fun a b => a ^^^ b) s

/-- `not` (41_alu.md R128): `reg2` is not resolved. -/
def execNot (reg1 : Byte) (s : State) : Result :=
  withR reg1 s fun r1 s => .next (s.writeReg r1 (~~~(s.readReg r1)))

end Sys2Proof.Machine
end

