-- ==== Sys2Proof/Machine/Jump.lean ====
section
/-! DEFINITION. Control transfer: `jmp`, `jeq`, `jlt`, `jle`, `jgt`, `jge` (42_control_transfer.md). A target is not
checked here: the next tick's fetch checks it (R140). -/

namespace Sys2Proof.Machine

/-- `jmp` (42_control_transfer.md R141). -/
def execJmp (reg1 : Byte) (s : State) : Result :=
  withR reg1 s fun r1 s => .next (s.setIp (s.readReg r1))

/-- `jeq` (42_control_transfer.md R142). -/
def execJeq (reg1 : Byte) (s : State) : Result := conditionalJump reg1 .eq s

/-- `jlt` (42_control_transfer.md R143). -/
def execJlt (reg1 : Byte) (s : State) : Result := conditionalJump reg1 .lt s

/-- `jle` (42_control_transfer.md R144). -/
def execJle (reg1 : Byte) (s : State) : Result := conditionalJump reg1 .le s

/-- `jgt` (42_control_transfer.md R145). -/
def execJgt (reg1 : Byte) (s : State) : Result := conditionalJump reg1 .gt s

/-- `jge` (42_control_transfer.md R146): the condition is the parameter `jgeCond`. -/
def execJge (reg1 : Byte) (s : State) : Result := conditionalJump reg1 .ge s

end Sys2Proof.Machine
end

