-- ==== Sys2Proof/Machine/MoveStoreIo.lean ====
section
/-! DEFINITION. `mov`, `sto`, `ior`, `iow` (43_move_store_io.md). -/

namespace Sys2Proof.Machine

/-- `mov` (43_move_store_io.md R160). -/
def execMov (reg1 : Byte) (imm : Imm) (s : State) : Result :=
  withR reg1 s fun r1 s => .next (s.writeReg r1 (movImm s.cfg imm))

/-- `sto` (43_move_store_io.md R164): a failed check writes no byte. Without a handler (`stoImplemented` false) dispatch
raises UNKINSN before any field is resolved (R165). -/
def execSto (reg1 : Byte) (imm : Imm) (s : State) : Result :=
  if s.cfg.stoImplemented then
    withR reg1 s fun r1 s =>
      match checkAddr (stoAddr imm) with
      | some f => .next (s.raise f)
      | none => .next (s.setMem (Memory.writeWord s.cfg.byteOrder s.mem (stoAddr imm).toNat (s.readReg r1)))
  else .next s.unknownInstruction

/-- `ior` (43_move_store_io.md R167): while there is no item the core holds, and the state is that before the tick
(40_execution_cycle.md R115). -/
def execIor (reg1 : Byte) (s : State) : Result :=
  withR reg1 s fun r1 s1 =>
    match s1.inRead with
    | .byte b rest => .next ((s1.setInput rest).writeReg r1 (b.setWidth 64))
    | .eof => .next (s1.writeReg r1 Config.eofValue)
    | .nothingYet => .next s

/-- `iow` (43_move_store_io.md R170): the low byte of the register. -/
def execIow (reg1 : Byte) (s : State) : Result :=
  withR reg1 s fun r1 s => .next (s.outWrite (byteAt (s.readReg r1) 0))

end Sys2Proof.Machine
end

