-- ==== Sys2Proof/Machine/System.lean ====
section
/-! DEFINITION. `hlt`, `nop` and the three reserved opcodes (44_system.md). -/

namespace Sys2Proof.Machine

/-- `hlt` (44_system.md R180): no field is resolved. -/
def execHlt (s : State) : Result := withN s fun s => .next s.setHalt

/-- `nop` (44_system.md R181): no field is resolved. -/
def execNop (s : State) : Result := withN s fun s => .next s

/-- `JNE` (44_system.md R182): reserved, no handler; its fields are not resolved. -/
def execJne (s : State) : Result := .next s.unknownInstruction

/-- `LOA` (44_system.md R182): reserved, no handler; its fields are not resolved. -/
def execLoa (s : State) : Result := .next s.unknownInstruction

/-- `SIP` (44_system.md R182): reserved, no handler; its fields are not resolved. -/
def execSip (s : State) : Result := .next s.unknownInstruction

end Sys2Proof.Machine
end

