-- ==== Sys2Proof/Machine/Dispatch.lean ====
section
/-! DEFINITION. The dispatch (40_execution_cycle.md R105): one arm per instruction. A field an arm drops is one the
operation does not read (30_encoding.md R62). -/

namespace Sys2Proof.Machine

def exec (i : Instr) (s : State) : Host.Outcome State Fault Refusal :=
  match i with
  | .hlt _ _ _ => Sys2Proof.Machine.execHlt s
  | .nop _ _ _ => Sys2Proof.Machine.execNop s
  | .cmp reg1 reg2 _ => Sys2Proof.Machine.execCmp reg1 reg2 s
  | .add reg1 reg2 _ => Sys2Proof.Machine.execAdd reg1 reg2 s
  | .sub reg1 reg2 _ => Sys2Proof.Machine.execSub reg1 reg2 s
  | .mul reg1 reg2 _ => Sys2Proof.Machine.execMul reg1 reg2 s
  | .div reg1 reg2 _ => Sys2Proof.Machine.execDiv reg1 reg2 s
  | .and reg1 reg2 _ => Sys2Proof.Machine.execAnd reg1 reg2 s
  | .or reg1 reg2 _ => Sys2Proof.Machine.execOr reg1 reg2 s
  | .xor reg1 reg2 _ => Sys2Proof.Machine.execXor reg1 reg2 s
  | .not reg1 _ _ => Sys2Proof.Machine.execNot reg1 s
  | .jmp reg1 _ _ => Sys2Proof.Machine.execJmp reg1 s
  | .jeq reg1 _ _ => Sys2Proof.Machine.execJeq reg1 s
  | .jlt reg1 _ _ => Sys2Proof.Machine.execJlt reg1 s
  | .jle reg1 _ _ => Sys2Proof.Machine.execJle reg1 s
  | .jgt reg1 _ _ => Sys2Proof.Machine.execJgt reg1 s
  | .jge reg1 _ _ => Sys2Proof.Machine.execJge reg1 s
  | .mov reg1 _ imm => Sys2Proof.Machine.execMov reg1 imm s
  | .sto reg1 _ imm => Sys2Proof.Machine.execSto reg1 imm s
  | .ior reg1 _ _ => Sys2Proof.Machine.execIor reg1 s
  | .iow reg1 _ _ => Sys2Proof.Machine.execIow reg1 s
  | .jne _ _ _ => Sys2Proof.Machine.execJne s
  | .loa _ _ _ => Sys2Proof.Machine.execLoa s
  | .sip _ _ _ => Sys2Proof.Machine.execSip s

end Sys2Proof.Machine
end

