-- ==== Sys2Proof/Machine/Tick.lean ====
section
/-! DEFINITION. The execution cycle (40_execution_cycle.md): the tick, and what one clock cycle does in each status. -/

namespace Sys2Proof.Machine

/-- The instruction the next tick would execute: none when the fetch faults or the opcode has no name. -/
def State.current (s : State) : Option Instr :=
  match s.fetch with
  | .fault _ => none
  | .word w =>
    match decode s.cfg w with
    | .ok i => some i
    | .error _ => none

/-- One tick (40_execution_cycle.md R109): fetch checks, fetch, decode, dispatch, and the operation's meaning, which
advances `IP`, resolves its register fields and executes. -/
def tick (s : State) : Result :=
  match s.fetch with
  | .fault f => .next (s.raise f)
  | .word w =>
    match decode s.cfg w with
    | .ok i => exec i s
    | .error _ => .next s.unknownInstruction

/-- One clock cycle by status (10_state.md R33, 40_execution_cycle.md R100, R113): a running core ticks, a halted or
faulted core stays as it is, and an UNDEFINED stop ends in a fault of its own (60_exceptions.md R210;
notes/assumptions/2.md, 3.md). -/
def cycle (s : State) : Result :=
  match s.undef with
  | some r => .fault (.undefinedStop r)
  | none =>
    match s.status with
    | .running => tick s
    | .halted | .faulted | .undefined => .next s

end Sys2Proof.Machine
end

