-- ==== Sys2Proof/Machine/Step.lean ====
section
/-! DEFINITION. The step of the machine, and how a word is placed where it fetches next. -/

namespace Sys2Proof.Machine

/-- One step: one clock cycle of the core. -/
def step (s : State) : Host.Outcome State Fault Refusal := cycle s

/-- `s` with the instruction word `w` (bits numbered as spec/opcode_table.json numbers them, those at and above `nbits`
zero) stored where `step` fetches next (notes/assumptions/19.md). -/
def State.withFetchWord (s : State) (nbits w : Nat) : State := s.placeWord (BitVec.ofNat 64 (w % 2 ^ nbits))

end Sys2Proof.Machine
end

