-- ==== Sys2Proof/Machine/Assembler.lean ====
section
/-! DEFINITION. The assembler's text (30_encoding.md R74 to R88): the transcriber from lines of text to instruction
words, and the canonical spelling of an instruction. It executes nothing. Text is a list of characters
(notes/assumptions/14.md). -/

namespace Sys2Proof.Machine

/-- The refusals of 30_encoding.md R85. -/
inductive AsmError where
  | unknownMnemonic | missingOperand | missingComma | unknownRegister | badImmediate
deriving DecidableEq, Repr

/-- A failed assembly: the 1-based number of the first refused line and its refusal (30_encoding.md R85). -/
structure AsmFailure where
  line  : Nat
  error : AsmError
deriving DecidableEq, Repr

/-! ### Lines -/

/-- The lines of a text, without their terminators: a line feed, or a carriage return and a line feed (30_encoding.md
R74). -/
def splitLines : List Char → List (List Char)
  | [] => []
  | c :: cs =>
    if c = '\n' then [] :: splitLines cs
    else
      match splitLines cs with
      | [] => [[c]]
      | l :: ls => if c = '\r' && l.isEmpty && cs.head? = some '\n' then [] :: ls else (c :: l) :: ls

/-- A space or a tab: the white space of a line (30_encoding.md R75). -/
def isBlank (c : Char) : Bool := c == ' ' || c == '\t'

/-- A line that gives no output: empty, blank, or a comment (30_encoding.md R75). -/
def skippedLine (line : List Char) : Bool :=
  match line.dropWhile isBlank with
  | [] => true
  | c :: _ => c == ';' || c == '#'

/-! ### Mnemonics -/

/-- The mnemonic of an opcode, in lower case; the reserved ones have none (30_encoding.md R67). -/
def mnemonicText : Opcode → List Char
  | .hlt => ['h', 'l', 't']
  | .nop => ['n', 'o', 'p']
  | .cmp => ['c', 'm', 'p']
  | .add => ['a', 'd', 'd']
  | .sub => ['s', 'u', 'b']
  | .mul => ['m', 'u', 'l']
  | .div => ['d', 'i', 'v']
  | .and => ['a', 'n', 'd']
  | .or  => ['o', 'r']
  | .xor => ['x', 'o', 'r']
  | .not => ['n', 'o', 't']
  | .jmp => ['j', 'm', 'p']
  | .jeq => ['j', 'e', 'q']
  | .jlt => ['j', 'l', 't']
  | .jle => ['j', 'l', 'e']
  | .jgt => ['j', 'g', 't']
  | .jge => ['j', 'g', 'e']
  | .mov => ['m', 'o', 'v']
  | .sto => ['s', 't', 'o']
  | .ior => ['i', 'o', 'r']
  | .iow => ['i', 'o', 'w']
  | .jne | .loa | .sip => []

/-- The mnemonics in the order they are tried (30_encoding.md R76). -/
def mnemonicOrder : List Opcode :=
  [.hlt, .nop, .cmp, .add, .sub, .mul, .div, .and, .or, .xor, .not,
   .jmp, .jeq, .jlt, .jle, .jgt, .jge, .mov, .ior, .iow, .sto]

/-- An ASCII capital letter made small; any other character as it is. -/
def lowerAscii (c : Char) : Char := if 'A' ≤ c ∧ c ≤ 'Z' then Char.ofNat (c.toNat + 32) else c

/-- What follows a word at the head of a line, the word matched without regard to case. -/
def afterWord : List Char → List Char → Option (List Char)
  | [], line => some line
  | _ :: _, [] => none
  | w :: ws, c :: cs => if lowerAscii c = w then afterWord ws cs else none

/-- The first mnemonic the line starts with, and the rest of the line (30_encoding.md R76). -/
def matchMnemonic (line : List Char) : List Opcode → Option (Opcode × List Char)
  | [] => none
  | op :: ops =>
    match afterWord (mnemonicText op) line with
    | some rest => some (op, rest)
    | none => matchMnemonic line ops

/-! ### Operands -/

/-- The token of a register (30_encoding.md R79). -/
def regText : Reg → List Char
  | .gp0 => ['g', 'p', '0']
  | .gp1 => ['g', 'p', '1']
  | .gp2 => ['g', 'p', '2']
  | .gp3 => ['g', 'p', '3']
  | .gp4 => ['g', 'p', '4']
  | .gp5 => ['g', 'p', '5']
  | .gp6 => ['g', 'p', '6']
  | .gp7 => ['g', 'p', '7']

/-- The register a token names: the token must be exactly its text (30_encoding.md R79). -/
def readReg (t : List Char) : Option Reg := Reg.all.find? fun r => regText r == t

/-- The value of a digit character: `0-9`, `a-f`, `A-F`. -/
def digitValue (c : Char) : Option Nat :=
  if '0' ≤ c ∧ c ≤ '9' then some (c.toNat - 48)
  else if 'a' ≤ c ∧ c ≤ 'f' then some (c.toNat - 87)
  else if 'A' ≤ c ∧ c ≤ 'F' then some (c.toNat - 55)
  else none

/-- The number digits of a base spell after `acc`. -/
def readDigitsFrom (base : Nat) : Nat → List Char → Option Nat
  | acc, [] => some acc
  | acc, c :: cs =>
    match digitValue c with
    | some d => if d < base then readDigitsFrom base (acc * base + d) cs else none
    | none => none

/-- The number one or more digits of a base spell. -/
def readDigits (base : Nat) (t : List Char) : Option Nat :=
  if t.isEmpty then none else readDigitsFrom base 0 t

/-- Hexadecimal: `0x`, one or more digits, at most 0xFFFF_FFFF (30_encoding.md R83). -/
def readHex (t : List Char) : Option Imm :=
  match t with
  | '0' :: 'x' :: ds =>
    match readDigits 16 ds with
    | some n => if n < 2 ^ 32 then some (BitVec.ofNat 32 n) else none
    | none => none
  | _ => none

/-- Decimal: an optional sign, one or more digits, from -2^31 to 2^32 - 1, kept modulo 2^32 (30_encoding.md R83). -/
def readDecimal (t : List Char) : Option Imm :=
  match t with
  | '-' :: ds =>
    match readDigits 10 ds with
    | some n => if n ≤ 2 ^ 31 then some (-(BitVec.ofNat 32 n)) else none
    | none => none
  | '+' :: ds =>
    match readDigits 10 ds with
    | some n => if n < 2 ^ 32 then some (BitVec.ofNat 32 n) else none
    | none => none
  | ds =>
    match readDigits 10 ds with
    | some n => if n < 2 ^ 32 then some (BitVec.ofNat 32 n) else none
    | none => none

/-- An immediate: hexadecimal first, then signed decimal (30_encoding.md R83). -/
def readImm (t : List Char) : Option Imm := (readHex t).orElse fun _ => readDecimal t

/-- The text before the first comma, and the text after it less one leading space (30_encoding.md R81). -/
def splitComma : List Char → Option (List Char × List Char)
  | [] => none
  | c :: cs =>
    if c = ',' then
      match cs with
      | ' ' :: rest => some ([], rest)
      | rest => some ([], rest)
    else
      match splitComma cs with
      | some (t1, t2) => some (c :: t1, t2)
      | none => none

/-- One-register operand text (30_encoding.md R80). -/
def readOneReg (t : List Char) : Except AsmError Reg :=
  if t.isEmpty then .error .missingOperand
  else
    match readReg t with
    | some r => .ok r
    | none => .error .unknownRegister

/-- Two-register operand text (30_encoding.md R81). -/
def readTwoRegs (t : List Char) : Except AsmError (Reg × Reg) :=
  match splitComma t with
  | none => .error .missingComma
  | some (t1, t2) =>
    if t2.isEmpty then .error .missingOperand
    else
      match readReg t1, readReg t2 with
      | some r1, some r2 => .ok (r1, r2)
      | _, _ => .error .unknownRegister

/-- Register and immediate operand text (30_encoding.md R82; the order of the last two refusals is
notes/assumptions/14.md). -/
def readRegImm (t : List Char) : Except AsmError (Reg × Imm) :=
  match splitComma t with
  | none => .error .missingComma
  | some (t1, t2) =>
    if t2.isEmpty then .error .missingOperand
    else
      match readReg t1 with
      | none => .error .unknownRegister
      | some r =>
        match readImm t2 with
        | some v => .ok (r, v)
        | none => .error .badImmediate

/-- The instruction an opcode and the text after its one space spell (30_encoding.md R77, R80 to R82, R84). -/
def readOperands (op : Opcode) (t : List Char) : Except AsmError Instr :=
  match op.form with
  | .n => .ok (Instr.build op 0 0 0)
  | .r =>
    match readOneReg t with
    | .ok r => .ok (Instr.build op r.mask 0 0)
    | .error e => .error e
  | .rr =>
    match readTwoRegs t with
    | .ok (r1, r2) => .ok (Instr.build op r1.mask r2.mask 0)
    | .error e => .error e
  | .ri =>
    match readRegImm t with
    | .ok (r, v) => .ok (Instr.build op r.mask 0 v)
    | .error e => .error e
  | .reserved => .error .unknownMnemonic

/-- The instruction of a line that is not skipped: the rest of a no-operand line is ignored, and any other form needs
exactly one space after the mnemonic (30_encoding.md R76 to R78). -/
def readInstr (line : List Char) : Except AsmError Instr :=
  match matchMnemonic line mnemonicOrder with
  | none => .error .unknownMnemonic
  | some (op, rest) =>
    if op.form = .n then readOperands op []
    else
      match rest with
      | ' ' :: operands => readOperands op operands
      | _ => .error .missingOperand

/-- One line: none when it is skipped (30_encoding.md R75). -/
def assembleLine (line : List Char) : Except AsmError (Option Instr) :=
  if skippedLine line then .ok none
  else
    match readInstr line with
    | .ok i => .ok (some i)
    | .error e => .error e

/-- The instructions of numbered lines; the first refused line ends the assembly (30_encoding.md R85). -/
def assembleLines : Nat → List (List Char) → Except AsmFailure (List Instr)
  | _, [] => .ok []
  | n, line :: lines =>
    match assembleLine line with
    | .error e => .error { line := n, error := e }
    | .ok none => assembleLines (n + 1) lines
    | .ok (some i) =>
      match assembleLines (n + 1) lines with
      | .ok is => .ok (i :: is)
      | .error f => .error f

/-- The assembler: the whole image or one failure; lines are numbered from 1 (30_encoding.md R74, R85, R86). -/
def assemble (c : Config) (text : List Char) : Except AsmFailure (List Byte) :=
  match assembleLines 1 (splitLines text) with
  | .ok is => .ok (is.flatMap (encodeBytes c))
  | .error f => .error f

/-! ### The canonical spelling -/

/-- A hexadecimal digit. -/
def hexDigit (n : Nat) : Char := if n < 10 then Char.ofNat (48 + n) else Char.ofNat (55 + n)

/-- The `k` lowest hexadecimal digits of a number, the highest first. -/
def hexDigits : Nat → Nat → List Char
  | 0, _ => []
  | k + 1, n => hexDigit (n / 16 ^ k % 16) :: hexDigits k n

/-- An immediate in hexadecimal, without leading zeros (notes/assumptions/15.md). -/
def immText (v : Imm) : List Char :=
  match (hexDigits 8 v.toNat).dropWhile (· == '0') with
  | [] => ['0', 'x', '0']
  | ds => '0' :: 'x' :: ds

/-- The spelling of an instruction (30_encoding.md R88): none when it is not canonical or its opcode is reserved. -/
def instrText (i : Instr) : Option (List Char) :=
  if i.canonical then
    match i.form with
    | .n => some (mnemonicText i.opcode)
    | .r => (resolve i.reg1).map fun r => mnemonicText i.opcode ++ ' ' :: regText r
    | .rr =>
      match resolve i.reg1, resolve i.reg2 with
      | some r1, some r2 => some (mnemonicText i.opcode ++ ' ' :: regText r1 ++ ',' :: ' ' :: regText r2)
      | _, _ => none
    | .ri => (resolve i.reg1).map fun r => mnemonicText i.opcode ++ ' ' :: regText r ++ ',' :: ' ' :: immText i.imm
    | .reserved => none
  else none

end Sys2Proof.Machine
end

