-- ==== Sys2Proof/Machine/Launch.lean ====
section
/-! DEFINITION. What the host does around a run: reset, image load, launch, and offering input
(70_reset_and_hazards.md R230 to R236, R240). These are not steps of the core; they happen between steps. -/

namespace Sys2Proof.Machine

/-- The memory in which an image's bytes stand from an address up and every other byte is 0 (70_reset_and_hazards.md
R232). -/
def imageMemory (a : Nat) : List Byte → Memory
  | [] => []
  | b :: bs => if b = 0#8 then imageMemory (a + 1) bs else (a, b) :: imageMemory (a + 1) bs

/-- Reset in any state: every register, flag and memory byte 0, `UNDEF` empty (70_reset_and_hazards.md R230). The
configuration is the machine's; the streams belong to the environment and stay (notes/assumptions/8.md). -/
def State.resetCore (s : State) : State :=
  { State.resetWith s.cfg with input := s.input, inputEnded := s.inputEnded, output := s.output }

/-- The image load while reset is held: none when the image is larger than memory (70_reset_and_hazards.md R232 to
R234). The load follows a reset, so every byte past the image is 0. The whole load is one action between two clock
edges: DESIGN CHOICE, notes/assumptions/24.md. -/
def State.loadImage (s : State) (image : List Byte) : Option State :=
  if image.length ≤ memSize then some (s.setMem (imageMemory 0 image)) else none

/-- A launch: reset, then the image load (00_scope.md R18, 70_reset_and_hazards.md R236), with the input stream the
environment has offered so far. -/
def launch (c : Config) (image input : List Byte) (ended : Bool) : Option State :=
  ({ State.resetWith c with input := input, inputEnded := ended } : State).loadImage image

/-- The host offers one more input byte: it goes behind the bytes already offered, which the host may not change or
withdraw (70_reset_and_hazards.md R240). After the end of the stream there is none to offer (notes/assumptions/6.md). -/
def State.offerByte (s : State) (b : Byte) : State :=
  if s.inputEnded then s else s.setInput (s.input ++ [b])

/-- The host ends the input stream (70_reset_and_hazards.md R240). -/
def State.endInput (s : State) : State := { s with inputEnded := true }

end Sys2Proof.Machine
end

