-- ==== Sys2Proof/Machine/Ports.lean ====
section
/-! DEFINITION. The block's ports (00_scope.md R11) as functions of the state: `status`, `dump`, the input handshake,
the output strobe, and the clock edge with the reset line. What a port carries in a cycle with `rst` asserted is not in
the spec; the port functions read the state alone and ignore `rst`: DESIGN CHOICE, notes/assumptions/23.md. -/

namespace Sys2Proof.Machine

/-- The encoding of the `status` port (00_scope.md R11). -/
def Status.code : Status → BitVec 2
  | .running => 0#2
  | .halted => 1#2
  | .faulted => 2#2
  | .undefined => 3#2

/-- What the `dump` port presents, in the order of 60_exceptions.md R215. -/
structure Dump where
  regs : RegFile
  af   : Byte
  ef   : Byte
  ip   : Word
deriving DecidableEq, Repr

/-- The `dump` port: valid when the status is not RUNNING (60_exceptions.md R215). -/
def State.dump (s : State) : Option Dump :=
  match s.status with
  | .running => none
  | .halted | .faulted | .undefined => some { regs := s.regs, af := s.af, ef := s.ef, ip := s.ip }

/-- `in_valid`: an item, a byte or end-of-stream, is available (43_move_store_io.md R168). -/
def State.inValid (s : State) : Bool := !s.input.isEmpty || s.inputEnded

/-- `in_eof`: the available item is end-of-stream (43_move_store_io.md R168). -/
def State.inEof (s : State) : Bool := s.input.isEmpty && s.inputEnded

/-- `in_byte`: the available byte, if there is one (notes/assumptions/17.md). -/
def State.inByte (s : State) : Option Byte := s.input.head?

/-- The instruction of the tick this cycle runs when `rst` is low: none when the core is stopped. It ignores `rst`, and
so do the ports read from it: DESIGN CHOICE, notes/assumptions/23.md. -/
def State.ticking (s : State) : Option Instr :=
  match s.status with
  | .running => s.current
  | .halted | .faulted | .undefined => none

/-- The register an `ior` of this cycle would write, if this cycle's tick is one with a one-hot `reg1`. -/
def State.iorTarget (s : State) : Option Reg :=
  match s.ticking with
  | some (.ior reg1 _ _) => resolve reg1
  | _ => none

/-- `in_take`: asserted in the cycle an `ior` completes (43_move_store_io.md R168), with `rst` ignored: DESIGN CHOICE,
notes/assumptions/23.md. -/
def State.inTake (s : State) : Bool := s.iorTarget.isSome && s.inValid

/-- The wait of 10_state.md R36: this cycle's tick is an `ior` that finds no item, with `rst` ignored: DESIGN CHOICE,
notes/assumptions/23.md. -/
def State.holding (s : State) : Bool := s.iorTarget.isSome && !s.inValid

/-- `out_valid` and `out_byte`: the byte an `iow` drives in the one cycle of its tick (43_move_store_io.md R171), with
`rst` ignored: DESIGN CHOICE, notes/assumptions/23.md. -/
def State.outByte (s : State) : Option Byte :=
  match s.ticking with
  | some (.iow reg1 _ _) => (resolve reg1).map fun r => byteAt (s.readReg r) 0
  | _ => none

/-- A clock edge with the reset line: reset is synchronous (00_scope.md R11). No tick runs before reset is
released (70_reset_and_hazards.md R230), so an edge with `rst` asserted moves no stream item; that the port functions do
not follow `rst` is notes/assumptions/23.md. That such an edge after an image load clears the image again is a DESIGN
CHOICE, notes/assumptions/24.md. -/
def clockEdge (rst : Bool) (s : State) : Result := if rst then .next s.resetCore else step s

end Sys2Proof.Machine
end

