-- ==== Sys2Proof/Safety.lean ====
section
/-! DEFINITION. What claims are stated in terms of: the invariant every step keeps, what a safe run is, and the frames
that say what stays as it was. -/

namespace Sys2Proof.Machine

/-- `AF` holds no bit but `E`, `G` and `L` (10_state.md R27). -/
def State.afClean (s : State) : Bool :=
  (s.af &&& ~~~(eqMask s.cfg ||| gtMask s.cfg ||| ltMask s.cfg)) == 0#8

/-- `EF` is empty or holds exactly one fault class (40_execution_cycle.md R111). -/
def State.efSingle (s : State) : Bool :=
  s.ef == 0#8 || s.ef == faultMask s.cfg .addr || s.ef == faultMask s.cfg .unkinsn
    || s.ef == faultMask s.cfg .badreg || s.ef == faultMask s.cfg .misalign

/-- At most one of `EF`, `HALT` and `UNDEF` is set (40_execution_cycle.md R110). -/
def State.oneStop (s : State) : Bool :=
  (s.ef == 0#8 || (!s.halt && s.undef.isNone)) && (!s.halt || s.undef.isNone)

/-- The invariant: an allowed configuration, memory in canonical form, clean flag registers, at most one stop. -/
def State.Inv (s : State) : Prop :=
  s.cfg.wf = true ∧ Memory.wf s.mem = true ∧ s.afClean = true ∧ s.efSingle = true ∧ s.oneStop = true

/-- `t` is reached from `s` in `k` steps that each answer a next state. -/
def RunsTo (k : Nat) (s t : State) : Prop := Host.Core.run Sys2Proof.core k s = .next t

/-- A run is safe when it never reaches the UNDEFINED stop, about which nothing may be claimed (60_exceptions.md R210). -/
def SafeRun (s : State) : Prop := ∀ k t, RunsTo k s t → t.status ≠ .undefined

/-- A run ends well when it stops HALTED (60_exceptions.md R213). -/
def HaltsFrom (s : State) : Prop := ∃ k t, RunsTo k s t ∧ t.status = .halted

/-! ### Frames: `t` beside `s` -/

/-- Every general register reads as before. -/
def SameRegs (s t : State) : Prop := ∀ q, t.readReg q = s.readReg q

/-- Every general register but `r` reads as before. -/
def SameRegsBut (r : Reg) (s t : State) : Prop := ∀ q, q ≠ r → t.readReg q = s.readReg q

/-- Every byte of memory reads as before. -/
def SameMemory (s t : State) : Prop := ∀ a, Memory.read t.mem a = Memory.read s.mem a

/-- Every byte of memory outside the eight bytes from `a` up reads as before. -/
def SameMemoryBut (a : Nat) (s t : State) : Prop :=
  ∀ c, c < a ∨ a + 8 ≤ c → Memory.read t.mem c = Memory.read s.mem c

/-- `EF`, `HALT` and `UNDEF` are as before. -/
def SameStops (s t : State) : Prop := t.ef = s.ef ∧ t.halt = s.halt ∧ t.undef = s.undef

/-- The streams are as before. -/
def SameStreams (s t : State) : Prop := t.input = s.input ∧ t.inputEnded = s.inputEnded ∧ t.output = s.output

/-- `t` is `s` with `IP` advanced by 8 and no other change but, perhaps, register `r`. -/
def OnlyRegister (r : Reg) (s t : State) : Prop :=
  SameRegsBut r s t ∧ t.ip = s.ip + 8#64 ∧ t.af = s.af ∧ SameStops s t ∧ SameMemory s t ∧ SameStreams s t
    ∧ t.cfg = s.cfg

/-- `t` is `s` with no change but, perhaps, `IP`. -/
def OnlyIp (s t : State) : Prop :=
  SameRegs s t ∧ t.af = s.af ∧ SameStops s t ∧ SameMemory s t ∧ SameStreams s t ∧ t.cfg = s.cfg

/-- `t` is `s` with the bit of a fault class OR-ed into `EF`, `IP` equal to `ip`, and no other change
(60_exceptions.md R208). -/
def Raises (f : FaultClass) (ip : Word) (s t : State) : Prop :=
  t.ef = s.ef ||| faultMask s.cfg f ∧ t.ip = ip ∧ SameRegs s t ∧ t.af = s.af ∧ t.halt = s.halt ∧ t.undef = s.undef
    ∧ SameMemory s t ∧ SameStreams s t ∧ t.cfg = s.cfg

/-- A jump instruction's whole effect: it answers a next state whose `IP` is the register when it is taken and the next
instruction's address when it is not, and changes nothing else (42_control_transfer.md R140). -/
def JumpsWhen (i : Instr) (r : Reg) (taken : Bool) (s : State) : Prop :=
  ∃ t, exec i s = .next t ∧ t.ip = (if taken then s.readReg r else s.ip + 8#64) ∧ OnlyIp s t

/-- `t` is `s` with `IP` advanced by 8 and `HALT` set, and no other change (44_system.md R180). -/
def OnlyHalt (s t : State) : Prop :=
  t.halt = true ∧ t.ip = s.ip + 8#64 ∧ SameRegs s t ∧ t.af = s.af ∧ t.ef = s.ef ∧ t.undef = s.undef ∧ SameMemory s t
    ∧ SameStreams s t ∧ t.cfg = s.cfg

/-- `t` is `s` with `IP` advanced by 8 and `UNDEF` set, and no other change (41_alu.md R124, 60_exceptions.md R210). -/
def OnlyUndefined (s t : State) : Prop :=
  t.undef = some .divByZero ∧ t.ip = s.ip + 8#64 ∧ SameRegs s t ∧ t.af = s.af ∧ t.ef = s.ef ∧ t.halt = s.halt
    ∧ SameMemory s t ∧ SameStreams s t ∧ t.cfg = s.cfg

/-! ### The characters of a line -/

/-- The line holds only spaces and tabs, or nothing (30_encoding.md R75). -/
def BlankLine (line : List Char) : Prop := ∀ c ∈ line, c = ' ' ∨ c = '\t'

/-- The line's first character that is no space or tab is `;` or `#` (30_encoding.md R75). -/
def CommentLine (line : List Char) : Prop :=
  ∃ (pre rest : List Char) (c : Char), line = pre ++ c :: rest ∧ BlankLine pre ∧ (c = ';' ∨ c = '#')

/-- The eight bytes at an address, the lowest first. -/
def bytesAt (m : Memory) (a : Nat) : List Byte := (List.range 8).map fun k => Memory.read m (a + k)

end Sys2Proof.Machine
end

