-- ==== Sys2Proof/Certificates/Slice0/Obligations.lean ====
section
/-! DEFINITION. The statements about the machine, each with the rules of spec/ it rests on. Parameters of 00_scope.md R9
are fields of the state's configuration, so a statement about every state covers every reading of them. -/

open Sys2Proof Sys2Proof.Machine

/-! ### The codec -/

/-- 30_encoding.md R72: packing and splitting the four fields are inverse both ways, and masks and registers are in
bijection over the eight one-hot bytes, every other byte naming no register. -/
def Obligations.FieldsAndMasksRoundTrip : Prop :=
  (∀ f : Fields, splitFields (joinFields f) = f) ∧
  (∀ w : Word, joinFields (splitFields w) = w) ∧
  (∀ r : Reg, resolve r.mask = some r) ∧
  (∀ (m : Byte) (r : Reg), resolve m = some r → r.mask = m) ∧
  (∀ m : Byte, resolve m = none ↔ m ∉ [0x01#8, 0x02#8, 0x04#8, 0x08#8, 0x10#8, 0x20#8, 0x40#8, 0x80#8])

/-- 30_encoding.md R60: the word of an instruction is eight bytes long and holds the opcode in bits 31:16, `reg1` in bits
15:8, `reg2` in bits 7:0 and the immediate in bits 63:32. -/
def Obligations.FieldsStandAtTheirBits : Prop :=
  ∀ (c : Config) (i : Instr),
    (encodeBytes c i).length = 8 ∧
    (∀ k, k < 16 → (encode c i).getLsbD (16 + k) = (c.opcodes.valueOf i.opcode).getLsbD k) ∧
    (∀ k, k < 8 → (encode c i).getLsbD (8 + k) = i.reg1.getLsbD k) ∧
    (∀ k, k < 8 → (encode c i).getLsbD k = i.reg2.getLsbD k) ∧
    (∀ k, k < 32 → (encode c i).getLsbD (32 + k) = i.imm.getLsbD k)

/-- 30_encoding.md R64 to R73 with 20_memory.md R42: under every allowed configuration, decoding the bytes of any
instruction, whatever its fields hold and whatever bytes follow, gives that instruction and leaves those bytes. -/
def Obligations.DecodeOfEncodeIsTheInstruction : Prop :=
  ∀ (c : Config) (i : Instr) (rest : List Byte), c.wf = true →
    decodeBytes c (encodeBytes c i ++ rest) = .ok (i, rest)

/-- The other direction: bytes that decode to an instruction are the instruction's own bytes (30_encoding.md R72). -/
def Obligations.EncodeOfDecodeIsTheBytes : Prop :=
  ∀ (c : Config) (bytes rest : List Byte) (i : Instr),
    decodeBytes c bytes = .ok (i, rest) → bytes = encodeBytes c i ++ rest

/-- Words of 95_test_vectors.md section 2 under the default configuration (the spec's decisions D1 and D2) decode to the
instructions they stand for. That JNE decodes to a constructor, and that the decoder rejects the unassigned opcode 0xFFFF by
name, are the model's choice (notes/assumptions/12.md): the spec's own decode never rejects. -/
def Obligations.SpecWordsDecode : Prop :=
  decode Config.default 0x0000000000000000#64 = .ok (.hlt 0x00 0x00 0) ∧
  decode Config.default 0x0000000000010000#64 = .ok (.nop 0x00 0x00 0) ∧
  decode Config.default 0x0000000000030801#64 = .ok (.add 0x08 0x01 0) ∧
  decode Config.default 0x0000000000020104#64 = .ok (.cmp 0x01 0x04 0) ∧
  decode Config.default 0x00000000000A0200#64 = .ok (.not 0x02 0x00 0) ∧
  decode Config.default 0x00000000000C2000#64 = .ok (.jeq 0x20 0x00 0) ∧
  decode Config.default 0x9ABCDEF000110400#64 = .ok (.mov 0x04 0x00 0x9ABCDEF0) ∧
  decode Config.default 0x0000001800120100#64 = .ok (.sto 0x01 0x00 0x18) ∧
  decode Config.default 0x0000000000138000#64 = .ok (.ior 0x80 0x00 0) ∧
  decode Config.default 0x0000000000150000#64 = .ok (.jne 0x00 0x00 0) ∧
  decode Config.default 0xFFFFFFFFFFFFFFFF#64 = .error (.noSuchOpcode 0xFFFF)

/-- 30_encoding.md R69: the opcode field alone selects the operation. A word decodes to an operation exactly when its
opcode field is that operation's value; 21 operations are implemented, the other three values and the 65,512 values
outside the enumeration select none, and fetching a word with one of them raises UNKINSN. -/
def Obligations.OpcodeAloneSelectsTheOperation : Prop :=
  (∀ (c : Config) (w : Word) (op : Opcode), c.wf = true →
    ((∃ i, decode c w = .ok i ∧ i.opcode = op) ↔ w.extractLsb' 16 16 = c.opcodes.valueOf op)) ∧
  (Opcode.all.filter Opcode.implemented).length = 21 ∧
  (∀ c : Config, c.wf = true →
    (Finset.univ.filter fun v : Half => v ∉ Opcode.all.map c.opcodes.valueOf).card = 65512) ∧
  (∀ (s : State) (w : Word), s.cfg.wf = true → s.status = .running → s.fetch = .word w →
    (∀ op : Opcode, op.implemented = true → w.extractLsb' 16 16 ≠ s.cfg.opcodes.valueOf op) →
    ∃ t, step s = .next t ∧ Raises .unkinsn (s.ip + 8#64) s t)

/-! ### The tick -/

/-- 40_execution_cycle.md R103, R109: when a running core's `IP` passes both fetch checks and the eight bytes there decode
to an instruction, the step is that instruction's meaning at that state. A meaning starts from the state before the
fetch: it advances `IP` by 8 itself, as the statements of the single instructions say (the model's form,
notes/assumptions/20.md). -/
def Obligations.StepRunsTheDecodedInstruction : Prop :=
  ∀ (s : State) (i : Instr), s.status = .running → s.ip.toNat ≤ 0xFFFFF8 → s.ip.toNat % 8 = 0 →
    decodeBytes s.cfg (bytesAt s.mem s.ip.toNat) = .ok (i, []) → step s = exec i s

/-- 40_execution_cycle.md R101: a fetch address above 0xFF_FFF8 raises ADDR and ends the tick, whatever its alignment; `IP`
and everything else stay, and nothing is fetched: the outcome is the same whatever memory holds. -/
def Obligations.FetchBeyondMemoryRaisesAddr : Prop :=
  ∀ s : State, s.status = .running → 0xFFFFF8 < s.ip.toNat →
    ∃ t, step s = .next t ∧ Raises .addr s.ip s t ∧ t.status = .faulted ∧
      ∀ m : Memory, step (s.setMem m) = .next (t.setMem m)

/-- 40_execution_cycle.md R102: a fetch address in range that is not a multiple of 8 raises MISALIGN and ends the tick; `IP`
and everything else stay, and nothing is fetched. -/
def Obligations.MisalignedFetchRaisesMisalign : Prop :=
  ∀ s : State, s.status = .running → s.ip.toNat ≤ 0xFFFFF8 → s.ip.toNat % 8 ≠ 0 →
    ∃ t, step s = .next t ∧ Raises .misalign s.ip s t ∧ t.status = .faulted ∧
      ∀ m : Memory, step (s.setMem m) = .next (t.setMem m)

/-- 44_system.md R182: executing `JNE`, `LOA` or `SIP` raises UNKINSN and has no other effect; `IP` keeps its advanced value.
No assembler line spells one. -/
def Obligations.ReservedOpcodesRaiseUnkinsn : Prop :=
  (∀ (s : State) (m1 m2 : Byte) (imm : Imm),
    (∃ t, exec (.jne m1 m2 imm) s = .next t ∧ Raises .unkinsn (s.ip + 8#64) s t) ∧
    (∃ t, exec (.loa m1 m2 imm) s = .next t ∧ Raises .unkinsn (s.ip + 8#64) s t) ∧
    (∃ t, exec (.sip m1 m2 imm) s = .next t ∧ Raises .unkinsn (s.ip + 8#64) s t)) ∧
  (∀ (line : List Char) (i : Instr), assembleLine line = .ok (some i) → i.opcode.implemented = true)

/-- 60_exceptions.md R202, R203, R204: exactly what leaves `EF` with ADDR, with MISALIGN and with UNKINSN after the tick of a
running core; and a jump to a target that is in range and not a multiple of 8 causes MISALIGN at the next fetch. That a
`sto` causes ADDR or MISALIGN only with a one-hot `reg1`, and UNKINSN whatever its fields hold, rests on the order of the
checks (60_exceptions.md R207; the spec's decisions D13, D14), and a `sto` without a handler on D11. -/
def Obligations.AddressAndOpcodeFaultCauses : Prop :=
  (∀ s t : State, s.Inv → s.status = .running → step s = .next t →
    (t.ef = faultMask s.cfg .addr ↔
      0xFFFFF8 < s.ip.toNat ∨
      ∃ (r : Reg) (m2 : Byte) (imm : Imm), s.current = some (.sto r.mask m2 imm) ∧ s.cfg.stoImplemented = true ∧
        0xFFFFF8 < imm.toNat) ∧
    (t.ef = faultMask s.cfg .misalign ↔
      (s.ip.toNat ≤ 0xFFFFF8 ∧ s.ip.toNat % 8 ≠ 0) ∨
      ∃ (r : Reg) (m2 : Byte) (imm : Imm), s.current = some (.sto r.mask m2 imm) ∧ s.cfg.stoImplemented = true ∧
        imm.toNat ≤ 0xFFFFF8 ∧ imm.toNat % 8 ≠ 0) ∧
    (t.ef = faultMask s.cfg .unkinsn ↔
      (s.ip.toNat ≤ 0xFFFFF8 ∧ s.ip.toNat % 8 = 0 ∧ s.current = none) ∨
      (∃ (m1 m2 : Byte) (imm : Imm), s.current = some (.jne m1 m2 imm) ∨ s.current = some (.loa m1 m2 imm) ∨
        s.current = some (.sip m1 m2 imm)) ∨
      ∃ (m1 m2 : Byte) (imm : Imm), s.current = some (.sto m1 m2 imm) ∧ s.cfg.stoImplemented = false)) ∧
  (∀ (i : Instr) (s t : State) (r : Reg), s.status = .running → i.opcode ∈ [.jmp, .jeq, .jlt, .jle, .jgt, .jge] →
    i.reg1 = r.mask → exec i s = .next t → t.ip = s.readReg r →
    (s.readReg r).toNat ≤ 0xFFFFF8 → (s.readReg r).toNat % 8 ≠ 0 →
    ∃ u, step t = .next u ∧ Raises .misalign (s.readReg r) t u)

/-- 40_execution_cycle.md R106, R107 with 60_exceptions.md R205 (the spec's decisions D12, D13): an instruction whose opcode
has a handler and one of whose read register fields is not one-hot raises BADREG and does nothing else: no register,
flag, memory byte or stream item, no jump; `IP` keeps its advanced value. -/
def Obligations.BadRegisterFieldRaisesBadreg : Prop :=
  ∀ (i : Instr) (s : State), i.opcode.implemented = true → (i.opcode = .sto → s.cfg.stoImplemented = true) →
    ((i.form.readsReg1 = true ∧ resolve i.reg1 = none) ∨ (i.form.readsReg2 = true ∧ resolve i.reg2 = none)) →
    ∃ t, exec i s = .next t ∧ Raises .badreg (s.ip + 8#64) s t

/-- 40_execution_cycle.md R100, R113 and 60_exceptions.md R210: a halted or faulted core never changes again, and a core at an
UNDEFINED stop takes no step that any claim could pass (the model's reading: notes/assumptions/2.md and 3.md). -/
def Obligations.StoppedCoreNeverTicks : Prop :=
  (∀ (s : State) (k : Nat), s.status = .halted ∨ s.status = .faulted → Host.Core.run core k s = .next s) ∧
  (∀ s : State, s.status = .undefined → ∃ r, step s = .fault (.undefinedStop r))

/-- The step never refuses, and faults only at an UNDEFINED stop: every instruction, on any operands, has a next state
(40_execution_cycle.md R109, R110; the model's reading of an UNDEFINED stop is notes/assumptions/2.md). -/
def Obligations.StepAnswersUnlessUndefined : Prop :=
  ∀ s : State,
    (s.status ≠ .undefined ∧ ∃ t, step s = .next t) ∨
    (s.status = .undefined ∧ ∃ r, step s = .fault (.undefinedStop r))

/-- 30_encoding.md R62, R71 (the spec's decision D12): fields an operation does not read never matter, so every instruction
executes as its canonical form. -/
def Obligations.UnreadFieldsAreIgnored : Prop :=
  ∀ (i : Instr) (s : State), exec i s = exec i.canonicalise s

/-! ### The ALU -/

/-- 41_alu.md R121 to R123 (the spec's decision D8): `add`, `sub` and `mul` complete on every state and registers, the same
register twice too, with the result modulo 2^64 in `reg1` and nothing else changed but `IP`. -/
def Obligations.AddSubMulAreModular : Prop :=
  ∀ (r1 r2 : Reg) (imm : Imm) (s : State),
    (∃ t, exec (.add r1.mask r2.mask imm) s = .next t ∧
      (t.readReg r1).toNat = ((s.readReg r1).toNat + (s.readReg r2).toNat) % 2 ^ 64 ∧ OnlyRegister r1 s t) ∧
    (∃ t, exec (.sub r1.mask r2.mask imm) s = .next t ∧
      (t.readReg r1).toNat = (2 ^ 64 + (s.readReg r1).toNat - (s.readReg r2).toNat) % 2 ^ 64 ∧ OnlyRegister r1 s t) ∧
    (∃ t, exec (.mul r1.mask r2.mask imm) s = .next t ∧
      (t.readReg r1).toNat = ((s.readReg r1).toNat * (s.readReg r2).toNat) % 2 ^ 64 ∧ OnlyRegister r1 s t)

/-- 41_alu.md R124 (the spec's decision D8): `div` by a divisor that is not 0 completes with the unsigned quotient in `reg1`
and nothing else changed but `IP`. -/
def Obligations.DivGivesTheUnsignedQuotient : Prop :=
  ∀ (r1 r2 : Reg) (imm : Imm) (s : State), s.readReg r2 ≠ 0#64 →
    ∃ t, exec (.div r1.mask r2.mask imm) s = .next t ∧
      (t.readReg r1).toNat = (s.readReg r1).toNat / (s.readReg r2).toNat ∧ OnlyRegister r1 s t

/-- 41_alu.md R124 and 60_exceptions.md R210 (the spec's decision D8): `div` by 0 sets `UNDEF`, no `EF` bit and no register,
leaves `IP` at the instruction + 8, and the status is UNDEFINED; the step after it answers no state
(notes/assumptions/2.md). -/
def Obligations.DivByZeroIsTheUndefinedStop : Prop :=
  ∀ (r1 r2 : Reg) (imm : Imm) (s : State), s.readReg r2 = 0#64 →
    ∃ t, exec (.div r1.mask r2.mask imm) s = .next t ∧ t.undef = some .divByZero ∧ t.status = .undefined ∧
      t.ip = s.ip + 8#64 ∧ SameRegs s t ∧ t.af = s.af ∧ t.ef = s.ef ∧ t.halt = s.halt ∧ SameMemory s t ∧
      SameStreams s t ∧ t.cfg = s.cfg ∧ step t = .fault (.undefinedStop .divByZero)

/-- 41_alu.md R125, R126, R127 (the spec's decisions D2 for the opcode numbers, D13 for BADREG): `and`, `or` and `xor` complete on every state and registers with the bitwise result in `reg1`
and nothing else changed but `IP`; with a bad register field they raise BADREG only; their opcodes are 0x0007, 0x0008
and 0x0009 under the default map. -/
def Obligations.AndOrXorAreBitwise : Prop :=
  (∀ (r1 r2 : Reg) (imm : Imm) (s : State),
    (∃ t, exec (.and r1.mask r2.mask imm) s = .next t ∧
      (∀ k, (t.readReg r1).getLsbD k = ((s.readReg r1).getLsbD k && (s.readReg r2).getLsbD k)) ∧
      OnlyRegister r1 s t) ∧
    (∃ t, exec (.or r1.mask r2.mask imm) s = .next t ∧
      (∀ k, (t.readReg r1).getLsbD k = ((s.readReg r1).getLsbD k || (s.readReg r2).getLsbD k)) ∧
      OnlyRegister r1 s t) ∧
    (∃ t, exec (.xor r1.mask r2.mask imm) s = .next t ∧
      (∀ k, (t.readReg r1).getLsbD k = ((s.readReg r1).getLsbD k != (s.readReg r2).getLsbD k)) ∧
      OnlyRegister r1 s t)) ∧
  (∀ (m1 m2 : Byte) (imm : Imm) (s : State), resolve m1 = none ∨ resolve m2 = none →
    (∃ t, exec (.and m1 m2 imm) s = .next t ∧ Raises .badreg (s.ip + 8#64) s t) ∧
    (∃ t, exec (.or m1 m2 imm) s = .next t ∧ Raises .badreg (s.ip + 8#64) s t) ∧
    (∃ t, exec (.xor m1 m2 imm) s = .next t ∧ Raises .badreg (s.ip + 8#64) s t)) ∧
  Config.default.opcodes.valueOf .and = 0x0007#16 ∧ Config.default.opcodes.valueOf .or = 0x0008#16 ∧
  Config.default.opcodes.valueOf .xor = 0x0009#16

/-- 41_alu.md R128 (the spec's decision D12 for the ignored `reg2`): `not` completes on every state with every bit of `reg1`
complemented, whatever `reg2` holds, and nothing else changed but `IP`. -/
def Obligations.NotComplementsEveryBit : Prop :=
  ∀ (r1 : Reg) (m2 : Byte) (imm : Imm) (s : State),
    ∃ t, exec (.not r1.mask m2 imm) s = .next t ∧
      (∀ k, k < 64 → (t.readReg r1).getLsbD k = !(s.readReg r1).getLsbD k) ∧ OnlyRegister r1 s t

/-- 41_alu.md R120 (the spec's decision D3 for the bit positions): `cmp` completes on every state; it ORs `E` when the registers
are equal, `G` when `reg1` is the greater and `L` when it is the lesser, unsigned, clears no bit and changes nothing else
but `IP`. -/
def Obligations.CmpAccumulatesOneFlag : Prop :=
  ∀ (r1 r2 : Reg) (imm : Imm) (s : State),
    ∃ t, exec (.cmp r1.mask r2.mask imm) s = .next t ∧
      (∀ k : Fin 8, t.af.getLsbD k =
        (s.af.getLsbD k ||
          (decide (k = s.cfg.af.e) && decide ((s.readReg r1).toNat = (s.readReg r2).toNat)) ||
          (decide (k = s.cfg.af.g) && decide ((s.readReg r2).toNat < (s.readReg r1).toNat)) ||
          (decide (k = s.cfg.af.l) && decide ((s.readReg r1).toNat < (s.readReg r2).toNat)))) ∧
      t.ip = s.ip + 8#64 ∧ SameRegs s t ∧ SameStops s t ∧ SameMemory s t ∧ SameStreams s t ∧ t.cfg = s.cfg

/-! ### Jumps -/

/-- 42_control_transfer.md R140, R141 (the spec's decision D2 for the opcode number): `jmp` completes on every state: `IP` becomes the register's whole value and nothing else
changes; a target of the next instruction's address behaves as `nop`; a target equal to the jump's own address leaves
the state as it was; a bad target faults at the next fetch, with `IP` holding it; its opcode is 0x000B by default. -/
def Obligations.JmpSetsIpToTheRegister : Prop :=
  (∀ (r : Reg) (m2 : Byte) (imm : Imm) (s : State), JumpsWhen (.jmp r.mask m2 imm) r true s) ∧
  (∀ (r : Reg) (m2 : Byte) (imm : Imm) (s : State), s.readReg r = s.ip + 8#64 →
    exec (.jmp r.mask m2 imm) s = exec (.nop r.mask m2 imm) s) ∧
  (∀ (r : Reg) (m2 : Byte) (imm : Imm) (s : State), s.readReg r = s.ip → exec (.jmp r.mask m2 imm) s = .next s) ∧
  (∀ (r : Reg) (m2 : Byte) (imm : Imm) (s : State), s.status = .running →
    (0xFFFFF8 < (s.readReg r).toNat ∨ (s.readReg r).toNat % 8 ≠ 0) →
    ∃ t u f, exec (.jmp r.mask m2 imm) s = .next t ∧ step t = .next u ∧ Raises f (s.readReg r) t u ∧
      f = (if 0xFFFFF8 < (s.readReg r).toNat then .addr else .misalign)) ∧
  Config.default.opcodes.valueOf .jmp = 0x000B#16

/-- 42_control_transfer.md R140, R142 to R146 (the spec's decisions D9, D10): each conditional jump completes on every state,
is taken exactly when one of its flags is set, and changes nothing but `IP`; `jge` tests the same flags as `jle` as
observed, and greater or equal when corrected. -/
def Obligations.ConditionalJumpsTestTheirFlags : Prop :=
  ∀ (r : Reg) (m2 : Byte) (imm : Imm) (s : State),
    JumpsWhen (.jeq r.mask m2 imm) r (s.af.getLsbD s.cfg.af.e) s ∧
    JumpsWhen (.jlt r.mask m2 imm) r (s.af.getLsbD s.cfg.af.l) s ∧
    JumpsWhen (.jle r.mask m2 imm) r (s.af.getLsbD s.cfg.af.e || s.af.getLsbD s.cfg.af.l) s ∧
    JumpsWhen (.jgt r.mask m2 imm) r (s.af.getLsbD s.cfg.af.g) s ∧
    JumpsWhen (.jge r.mask m2 imm) r
      (match s.cfg.jgeCond with
        | .asObserved => s.af.getLsbD s.cfg.af.e || s.af.getLsbD s.cfg.af.l
        | .corrected => s.af.getLsbD s.cfg.af.g || s.af.getLsbD s.cfg.af.e) s

/-- 42_control_transfer.md R148: once a conditional jump's condition holds it holds for the rest of the run. -/
def Obligations.OnceTakenAlwaysTaken : Prop :=
  ∀ (k : Nat) (s t : State) (j : JumpTest), RunsTo k s t →
    jumpTaken s.cfg j s.af = true → jumpTaken t.cfg j t.af = true

/-! ### Move, store, input and output -/

/-- 43_move_store_io.md R160 (the spec's decision D6): `mov` completes on every state with the immediate in `reg1`, read as
unsigned under `zext` and as signed under `sext`, and nothing else changed but `IP`. -/
def Obligations.MovLoadsTheImmediate : Prop :=
  ∀ (r : Reg) (m2 : Byte) (imm : Imm) (s : State),
    ∃ t, exec (.mov r.mask m2 imm) s = .next t ∧
      (s.cfg.immExt = .zext → (t.readReg r).toNat = imm.toNat) ∧
      (s.cfg.immExt = .sext → (t.readReg r).toInt = imm.toInt) ∧ OnlyRegister r s t

/-- 43_move_store_io.md R164 and 20_memory.md R42 (the spec's decisions D1, D7): a `sto` whose address passes the check
completes: the register's eight bytes stand at the address in the byte order, every other byte of memory is as before,
and nothing else changes but `IP`. -/
def Obligations.StoWritesEightBytes : Prop :=
  ∀ (r : Reg) (m2 : Byte) (imm : Imm) (s : State), s.Inv → s.cfg.stoImplemented = true →
    imm.toNat ≤ 0xFFFFF8 → imm.toNat % 8 = 0 →
    ∃ t, exec (.sto r.mask m2 imm) s = .next t ∧
      (∀ k, k < 8 → Memory.read t.mem ((stoAddr imm).toNat + k) =
        match s.cfg.byteOrder with
        | .little => (s.readReg r >>> (8 * k)).setWidth 8
        | .big => (s.readReg r >>> (56 - 8 * k)).setWidth 8) ∧
      (stoAddr imm).toNat = imm.toNat ∧ SameMemoryBut (stoAddr imm).toNat s t ∧
      t.ip = s.ip + 8#64 ∧ SameRegs s t ∧ t.af = s.af ∧ SameStops s t ∧ SameStreams s t ∧ t.cfg = s.cfg

/-- 43_move_store_io.md R164 (the spec's decision D7): a `sto` above 0xFF_FFF8 raises ADDR only, one in range that is not a
multiple of 8 raises MISALIGN, and neither writes a byte. -/
def Obligations.BadStoAddressWritesNothing : Prop :=
  ∀ (r : Reg) (m2 : Byte) (imm : Imm) (s : State), s.cfg.stoImplemented = true →
    (0xFFFFF8 < imm.toNat → ∃ t, exec (.sto r.mask m2 imm) s = .next t ∧ Raises .addr (s.ip + 8#64) s t) ∧
    (imm.toNat ≤ 0xFFFFF8 → imm.toNat % 8 ≠ 0 →
      ∃ t, exec (.sto r.mask m2 imm) s = .next t ∧ Raises .misalign (s.ip + 8#64) s t)

/-- 43_move_store_io.md R165 (the spec's decision D11): without a handler `sto` raises UNKINSN, whatever its fields hold, and
writes nothing. -/
def Obligations.StoWithoutHandlerRaisesUnkinsn : Prop :=
  ∀ (m1 m2 : Byte) (imm : Imm) (s : State), s.cfg.stoImplemented = false →
    ∃ t, exec (.sto m1 m2 imm) s = .next t ∧ Raises .unkinsn (s.ip + 8#64) s t

/-- 20_memory.md R56 and 43_move_store_io.md R166: after a `sto` whose address passes the check, a fetch at that address reads
the stored word and a fetch at any other address reads what it read before. -/
def Obligations.StoIsSeenByTheNextFetch : Prop :=
  ∀ (r : Reg) (m2 : Byte) (imm : Imm) (s t : State), s.Inv → s.cfg.stoImplemented = true →
    imm.toNat ≤ 0xFFFFF8 → imm.toNat % 8 = 0 → exec (.sto r.mask m2 imm) s = .next t →
    (t.setIp (stoAddr imm)).fetch = .word (s.readReg r) ∧
    ∀ a : Word, a ≠ stoAddr imm → (t.setIp a).fetch = (s.setIp a).fetch

/-- 43_move_store_io.md R167 (the spec's decision D15): with a byte offered, `ior` completes: the byte, zero-extended, is in
`reg1`, exactly that byte is taken from the input, and nothing else changes but `IP`. -/
def Obligations.IorTakesTheNextByte : Prop :=
  ∀ (r : Reg) (m2 : Byte) (imm : Imm) (s : State) (b : Byte) (rest : List Byte), s.input = b :: rest →
    ∃ t, exec (.ior r.mask m2 imm) s = .next t ∧ (t.readReg r).toNat = b.toNat ∧ t.input = rest ∧
      t.inputEnded = s.inputEnded ∧ t.output = s.output ∧ SameRegsBut r s t ∧ t.ip = s.ip + 8#64 ∧ t.af = s.af ∧
      SameStops s t ∧ SameMemory s t ∧ t.cfg = s.cfg

/-- 43_move_store_io.md R167 and 20_memory.md R52 (the spec's decision D15): at the end of the stream `ior` completes at once
with `eofValue`, whatever that is, in `reg1`; the end is not consumed, so the next `ior` finds it again. -/
def Obligations.IorAtEndOfStreamGivesEofValue : Prop :=
  ∀ (r : Reg) (m2 : Byte) (imm : Imm) (s : State), s.input = [] → s.inputEnded = true →
    ∃ t, exec (.ior r.mask m2 imm) s = .next t ∧ t.readReg r = Config.eofValue ∧ OnlyRegister r s t

/-- 43_move_store_io.md R167 and 40_execution_cycle.md R115 (the spec's decision D20): with no item and the stream not ended,
`ior` holds: the state, `IP` too, is that before the tick (the streams' form is the model's, notes/assumptions/6.md). -/
def Obligations.IorWithoutInputHolds : Prop :=
  ∀ (r : Reg) (m2 : Byte) (imm : Imm) (s : State), s.input = [] → s.inputEnded = false →
    exec (.ior r.mask m2 imm) s = .next s

/-- 43_move_store_io.md R170 and 20_memory.md R53 (the spec's decision D16): `iow` completes on every state: the low byte of
`reg1` is appended to the output and nothing else changes but `IP`. -/
def Obligations.IowAppendsTheLowByte : Prop :=
  ∀ (r : Reg) (m2 : Byte) (imm : Imm) (s : State),
    ∃ t, exec (.iow r.mask m2 imm) s = .next t ∧
      (∃ b : Byte, t.output = s.output ++ [b] ∧ b.toNat = (s.readReg r).toNat % 256) ∧
      t.input = s.input ∧ t.inputEnded = s.inputEnded ∧ SameRegs s t ∧ t.ip = s.ip + 8#64 ∧ t.af = s.af ∧
      SameStops s t ∧ SameMemory s t ∧ t.cfg = s.cfg

/-! ### Halt and no-op -/

/-- 44_system.md R180 (the spec's decision D12 for the ignored fields): `hlt` completes on every state, sets `HALT`, leaves
`IP` at the instruction + 8 and everything else as it was; a core that was running is then HALTED. -/
def Obligations.HltSetsHalt : Prop :=
  ∀ (m1 m2 : Byte) (imm : Imm) (s : State),
    ∃ t, exec (.hlt m1 m2 imm) s = .next t ∧ t.halt = true ∧ t.ip = s.ip + 8#64 ∧ SameRegs s t ∧ t.af = s.af ∧
      t.ef = s.ef ∧ t.undef = s.undef ∧ SameMemory s t ∧ SameStreams s t ∧ t.cfg = s.cfg ∧
      (s.status = .running → t.status = .halted)

/-- 44_system.md R181 (the spec's decision D12 for the ignored fields): `nop` completes on every state and changes nothing but
`IP`. -/
def Obligations.NopOnlyAdvances : Prop :=
  ∀ (m1 m2 : Byte) (imm : Imm) (s : State),
    ∃ t, exec (.nop m1 m2 imm) s = .next t ∧ t.ip = s.ip + 8#64 ∧ OnlyIp s t

/-! ### Reset, launch and the invariant -/

/-- 10_state.md R39, 70_reset_and_hazards.md R230, R231 (the spec's decision D17 for memory): after reset every register, flag
and byte of memory is 0, `UNDEF` is empty, the status is RUNNING and the first fetch is at address 0. The streams and the
configuration at reset are the model's choice (notes/assumptions/1.md, 7.md) and are not stated. -/
def Obligations.ResetValues : Prop :=
  (∀ r, State.reset.readReg r = 0#64) ∧ State.reset.ip = 0#64 ∧ State.reset.af = 0#8 ∧ State.reset.ef = 0#8 ∧
  State.reset.halt = false ∧ State.reset.undef = none ∧ (∀ a, Memory.read State.reset.mem a = 0#8) ∧
  State.reset.status = .running

/-- The invariant holds after reset, and after every launch under an allowed configuration (70_reset_and_hazards.md R230,
R236; the invariant is Safety.lean's). -/
def Obligations.ResetAndLaunchMeetTheInvariant : Prop :=
  State.reset.Inv ∧
  ∀ (c : Config) (image input : List Byte) (ended : Bool) (s : State), c.wf = true →
    launch c image input ended = some s → s.Inv ∧ s.status = .running ∧ s.ip = 0#64

/-- Every step keeps the invariant: the configuration stays an allowed one, memory stays canonical and below 16 MiB, `AF` and
`EF` hold no undefined bit, `EF` at most one class, and at most one of `EF`, `HALT` and `UNDEF` is set
(10_state.md R27, R29; 40_execution_cycle.md R110, R111). -/
def Obligations.StepKeepsTheInvariant : Prop :=
  ∀ s t : State, s.Inv → step s = .next t → t.Inv

/-- 60_exceptions.md R208: faults are precise. A step that changes `EF` changes nothing else, but for `IP` advanced by 8 when
the fault comes after the fetch. -/
def Obligations.FaultsArePrecise : Prop :=
  ∀ s t : State, step s = .next t → t.ef ≠ s.ef →
    ∃ f, Raises f t.ip s t ∧ t.status = .faulted ∧
      ((t.ip = s.ip ∧ (0xFFFFF8 < s.ip.toNat ∨ s.ip.toNat % 8 ≠ 0)) ∨
       (t.ip = s.ip + 8#64 ∧ s.ip.toNat ≤ 0xFFFFF8 ∧ s.ip.toNat % 8 = 0))

/-! ### Rules of the whole machine -/

/-- 10_state.md R28: `AF` is written only by `cmp`, and only by OR-ing one of its bits in; a bit once set stays set for the
rest of the run and only reset clears it; of the other instructions only the conditional jumps read it: any other
instruction does the same whatever `AF` holds. -/
def Obligations.AfIsWrittenOnlyByCmp : Prop :=
  (∀ s t : State, step s = .next t → t.af ≠ s.af →
    (∃ (m1 m2 : Byte) (imm : Imm), s.ticking = some (.cmp m1 m2 imm)) ∧
    (t.af = s.af ||| eqMask s.cfg ∨ t.af = s.af ||| gtMask s.cfg ∨ t.af = s.af ||| ltMask s.cfg)) ∧
  (∀ (k : Nat) (s t : State) (n : Nat), RunsTo k s t → s.af.getLsbD n = true → t.af.getLsbD n = true) ∧
  (∀ s : State, s.resetCore.af = 0#8) ∧
  (∀ (i : Instr) (s t : State) (m : Byte), i.opcode ∉ [.jeq, .jlt, .jle, .jgt, .jge] → exec i s = .next t →
    ∃ u, exec i { s with af := m } = .next u ∧ { u with af := t.af } = t ∧ (i.opcode ≠ .cmp → u.af = m))

/-- 10_state.md R30: `EF` is written only when a fault is raised, always by OR-ing one class's bit in; it is never cleared
except by reset and never read by an instruction; a non-zero `EF` stops the run. -/
def Obligations.EfOnlyAccumulatesFaults : Prop :=
  (∀ s t : State, step s = .next t → t.ef = s.ef ∨ ∃ f, t.ef = s.ef ||| faultMask s.cfg f) ∧
  (∀ (k : Nat) (s t : State) (n : Nat), RunsTo k s t → s.ef.getLsbD n = true → t.ef.getLsbD n = true) ∧
  (∀ s : State, s.resetCore.ef = 0#8) ∧
  (∀ (i : Instr) (s t : State) (m : Byte), exec i s = .next t →
    ∃ u, exec i { s with ef := m } = .next u ∧ { u with ef := t.ef } = t) ∧
  (∀ s : State, s.ef ≠ 0#8 → s.status ≠ .running ∧ ∀ t, step s = .next t → t = s)

/-- 10_state.md R31: `hlt` sets `HALT` and no other instruction changes it, nothing clears it but reset, and once it is set no
further tick occurs. -/
def Obligations.HaltIsSetOnlyByHlt : Prop :=
  (∀ (m1 m2 : Byte) (imm : Imm) (s : State), ∃ t, exec (.hlt m1 m2 imm) s = .next t ∧ t.halt = true) ∧
  (∀ s t : State, step s = .next t → t.halt ≠ s.halt →
    ∃ (m1 m2 : Byte) (imm : Imm), s.ticking = some (.hlt m1 m2 imm)) ∧
  (∀ s t : State, step s = .next t → s.halt = true → t = s) ∧
  (∀ s : State, s.resetCore.halt = false)

/-- 10_state.md R32, 60_exceptions.md R213 (the spec's decision D8): only a `div` with a zero divisor sets `UNDEF`. -/
def Obligations.OnlyDivByZeroIsUndefined : Prop :=
  ∀ s t : State, step s = .next t → t.undef ≠ s.undef →
    t.undef = some .divByZero ∧
    ∃ (m1 : Byte) (r2 : Reg) (imm : Imm), s.ticking = some (.div m1 r2.mask imm) ∧ s.readReg r2 = 0#64

/-- 20_memory.md R48: memory changes only by `sto`, and only in the eight bytes at its address; storing a word again changes
nothing more; reset followed by the image load leaves exactly the image. -/
def Obligations.MemoryChangesOnlyBySto : Prop :=
  (∀ (s t : State) (a : Nat), step s = .next t → Memory.read t.mem a ≠ Memory.read s.mem a →
    ∃ (r : Reg) (m2 : Byte) (imm : Imm), s.ticking = some (.sto r.mask m2 imm) ∧
      (stoAddr imm).toNat ≤ a ∧ a < (stoAddr imm).toNat + 8) ∧
  (∀ (o : ByteOrder) (m : Memory) (a : Nat) (v : Word), Memory.wf m = true → a + 8 ≤ memSize →
    Memory.writeWord o (Memory.writeWord o m a v) a v = Memory.writeWord o m a v) ∧
  (∀ (s t : State) (image : List Byte), s.resetCore.loadImage image = some t →
    ∀ a, Memory.read t.mem a = image.getD a 0#8)

/-- 40_execution_cycle.md R108: an instruction writes at most one general register, or `AF` (`cmp` only), or `IP` beyond its
advance (a jump only), or the eight bytes at a `sto`'s address (`sto` only), or one output byte (`iow` only); with a
register it takes at most one input byte, or holds (`ior` only). It leaves `EF`, `HALT` and `UNDEF` as they were and
changes the configuration and the stream's end never, but that one that raises a fault changes `EF` alone, `hlt` sets
`HALT` alone, and a `div` that raises none and whose divisor register holds 0 sets `UNDEF` alone, beside `IP` (44_system.md R180, 41_alu.md
R124, 60_exceptions.md R208; the spec's decision D8 for the `div`). -/
def Obligations.InstructionWritesOneThing : Prop :=
  ∀ (i : Instr) (s : State), ∃ t, exec i s = .next t ∧ t.inputEnded = s.inputEnded ∧ t.cfg = s.cfg ∧
    ((i.opcode ≠ .hlt ∧ ∃ f, Raises f (s.ip + 8#64) s t) ∨
     (i.opcode = .hlt ∧ OnlyHalt s t) ∨
     (i.opcode = .div ∧ (∃ r2, resolve i.reg2 = some r2 ∧ s.readReg r2 = 0#64) ∧ OnlyUndefined s t) ∨
     (i.opcode ≠ .hlt ∧ (i.opcode = .div → ∀ r2, resolve i.reg2 = some r2 → s.readReg r2 ≠ 0#64) ∧ SameStops s t ∧
      ((∃ r, resolve i.reg1 = some r ∧ SameRegsBut r s t ∧ t.af = s.af ∧
          (t.ip = s.ip + 8#64 ∨ (i.opcode = .ior ∧ t = s)) ∧ SameMemory s t ∧ t.output = s.output ∧
          (t.input = s.input ∨ (i.opcode = .ior ∧ ∃ b, s.input = b :: t.input))) ∨
       ((i.opcode = .cmp ∨ t.af = s.af) ∧ SameRegs s t ∧ t.ip = s.ip + 8#64 ∧ SameMemory s t ∧ SameStreams s t) ∨
       (i.opcode ∈ [.jmp, .jeq, .jlt, .jle, .jgt, .jge] ∧ SameRegs s t ∧ t.af = s.af ∧ SameMemory s t ∧
         SameStreams s t) ∨
       (i.opcode = .sto ∧ SameRegs s t ∧ t.af = s.af ∧ t.ip = s.ip + 8#64 ∧
         SameMemoryBut (stoAddr i.imm).toNat s t ∧ SameStreams s t) ∨
       (i.opcode = .iow ∧ SameRegs s t ∧ t.af = s.af ∧ t.ip = s.ip + 8#64 ∧ SameMemory s t ∧ t.input = s.input ∧
         ∃ b, t.output = s.output ++ [b]))))

/-- 20_memory.md R51 to R53: output is only appended to, one byte by an `iow`; input is only taken from the front, one byte by
an `ior`; a step never ends or reopens the stream. -/
def Obligations.StreamsMoveOneItemInOrder : Prop :=
  ∀ s t : State, step s = .next t →
    (t.output = s.output ∨
      ∃ (r : Reg) (m2 : Byte) (imm : Imm) (b : Byte), s.ticking = some (.iow r.mask m2 imm) ∧
        t.output = s.output ++ [b]) ∧
    (t.input = s.input ∨
      ∃ (r : Reg) (m2 : Byte) (imm : Imm) (b : Byte), s.ticking = some (.ior r.mask m2 imm) ∧
        s.input = b :: t.input) ∧
    t.inputEnded = s.inputEnded

/-- 20_memory.md R51, R52 and 40_execution_cycle.md R115 (the spec's decision D20): when an input byte arrives does not matter.
Unless the core holds for it, stepping and then offering a byte is offering the byte and then stepping; a holding core
stays as it is until a byte is offered, and then holds no longer (how a byte is offered is the model's form,
notes/assumptions/6.md). -/
def Obligations.InputArrivalTimeDoesNotMatter : Prop :=
  (∀ (s t : State) (b : Byte), s.holding = false → s.inputEnded = false → step s = .next t →
    step (s.offerByte b) = .next (t.offerByte b)) ∧
  (∀ (s : State) (b : Byte), s.holding = true → step s = .next s ∧ (s.offerByte b).holding = false)

/-- 10_state.md R25, 40_execution_cycle.md R103, R116: after a tick that fetched, `IP` is the instruction's address + 8, which
never wraps and is at most the size of memory, or a jump's register, or, while an `ior` holds, unchanged. -/
def Obligations.IpAfterATick : Prop :=
  ∀ s t : State, s.status = .running → s.ip.toNat ≤ 0xFFFFF8 → s.ip.toNat % 8 = 0 → step s = .next t →
    (t.ip.toNat = s.ip.toNat + 8 ∧ t.ip.toNat ≤ memSize) ∨
    (∃ (i : Instr) (r : Reg), s.current = some i ∧ i.opcode ∈ [.jmp, .jeq, .jlt, .jle, .jgt, .jge] ∧
      i.reg1 = r.mask ∧ t.ip = s.readReg r) ∨
    (s.holding = true ∧ t = s)

/-- 00_scope.md R9 and 30_encoding.md R68: no step changes the configuration, and no meaning depends on the opcode numbers
(the configuration's place in the state is the model's choice, notes/assumptions/1.md). -/
def Obligations.OpcodeNumbersDoNotMatter : Prop :=
  (∀ s t : State, step s = .next t → t.cfg = s.cfg) ∧
  (∀ (i : Instr) (s t : State) (m : OpcodeMap), exec i s = .next t →
    exec i { s with cfg := { s.cfg with opcodes := m } } = .next { t with cfg := { t.cfg with opcodes := m } })

/-! ### The ports and the host -/

/-- 43_move_store_io.md R168, R171 (the spec's decision D19): with `rst` low, the port values agree with the step. `out_valid`
with a byte exactly when the step appends that byte; `in_take` exactly when an `ior` completes, with the byte taken or at
end-of-stream; an `ior` that does not complete holds, with `in_take` low, and changes nothing (the values of a port that is
not valid, `in_take` at end-of-stream and the ports while `rst` is asserted are the model's reading,
notes/assumptions/17.md, 18.md, 23.md). -/
def Obligations.PortsAgreeWithTheStep : Prop :=
  (∀ (s : State) (r : Reg), s.iorTarget = some r ↔
    s.status = .running ∧ ∃ (m2 : Byte) (imm : Imm), s.current = some (.ior r.mask m2 imm)) ∧
  (∀ s : State, s.inTake = true ↔ (∃ r, s.iorTarget = some r) ∧ (s.input ≠ [] ∨ s.inputEnded = true)) ∧
  (∀ s : State, s.holding = true ↔ (∃ r, s.iorTarget = some r) ∧ s.input = [] ∧ s.inputEnded = false) ∧
  (∀ s t : State, step s = .next t →
    (∀ b, s.outByte = some b → t.output = s.output ++ [b]) ∧
    (s.outByte = none → t.output = s.output) ∧
    (∀ r, s.iorTarget = some r →
      (s.inTake = true ∧ s.holding = false ∧ t.ip = s.ip + 8#64 ∧
        ((∃ b, s.inValid = true ∧ s.inEof = false ∧ s.inByte = some b ∧ s.input = b :: t.input ∧
            t.readReg r = b.setWidth 64) ∨
         (s.inValid = true ∧ s.inEof = true ∧ t.input = s.input ∧ t.readReg r = Config.eofValue))) ∨
      (s.holding = true ∧ s.inTake = false ∧ s.inValid = false ∧ t = s)) ∧
    (s.inTake = true → ∃ r, s.iorTarget = some r) ∧
    (s.inTake = false → t.input = s.input) ∧
    (s.holding = true → s.inTake = false ∧ t = s))

/-- 10_state.md R33, 00_scope.md R11, 60_exceptions.md R215 (the spec's decisions D19, D21, D28): the status function in its
order, its encoding on the port, and the dump, valid exactly when the status is not RUNNING. -/
def Obligations.StatusAndDumpPorts : Prop :=
  (∀ s : State, s.undef ≠ none → s.status = .undefined) ∧
  (∀ s : State, s.undef = none → s.ef ≠ 0#8 → s.status = .faulted) ∧
  (∀ s : State, s.undef = none → s.ef = 0#8 → s.halt = true → s.status = .halted) ∧
  (∀ s : State, s.undef = none → s.ef = 0#8 → s.halt = false → s.status = .running) ∧
  Status.code .running = 0#2 ∧ Status.code .halted = 1#2 ∧ Status.code .faulted = 2#2 ∧
  Status.code .undefined = 3#2 ∧
  (∀ s : State, s.status = .running → s.dump = none) ∧
  (∀ s : State, s.status ≠ .running →
    ∃ d, s.dump = some d ∧ (∀ r, d.regs.read r = s.readReg r) ∧ d.af = s.af ∧ d.ef = s.ef ∧ d.ip = s.ip)

/-- 70_reset_and_hazards.md R232: while reset is held the image's bytes go to memory from address 0 up and every other byte
stays 0, for an image of any size up to the memory's; nothing else changes; after the load nothing but `sto` changes
memory. -/
def Obligations.ImageIsLoadedVerbatim : Prop :=
  (∀ (s : State) (image : List Byte), image.length ≤ memSize →
    ∃ t, s.resetCore.loadImage image = some t ∧
      (∀ (a : Nat) (h : a < image.length), Memory.read t.mem a = image[a]) ∧
      (∀ a, image.length ≤ a → Memory.read t.mem a = 0#8) ∧
      { t with mem := s.resetCore.mem } = s.resetCore) ∧
  (∀ s t : State, step s = .next t →
    (∀ (m1 m2 : Byte) (imm : Imm), s.ticking ≠ some (.sto m1 m2 imm)) → t.mem = s.mem)

/-- 70_reset_and_hazards.md R233 (the spec's decision D18): an image larger than memory has no launch. -/
def Obligations.OversizedImageIsRefused : Prop :=
  ∀ (c : Config) (image input : List Byte) (ended : Bool), memSize < image.length →
    launch c image input ended = none

/-- 70_reset_and_hazards.md R230, R231 (the spec's decisions D19, D21): a clock edge with reset asserted clears every register,
flag and memory byte in any state, an UNDEFINED stop too, and leaves the core RUNNING; the configuration and the
environment's streams stay (the model's choice, notes/assumptions/8.md). That it clears memory after an image load too,
with reset still asserted, is the model's choice (notes/assumptions/24.md). -/
def Obligations.ResetClearsEveryState : Prop :=
  ∀ s : State, ∃ t, clockEdge true s = .next t ∧ (∀ r, t.readReg r = 0#64) ∧ t.ip = 0#64 ∧ t.af = 0#8 ∧ t.ef = 0#8 ∧
    t.halt = false ∧ t.undef = none ∧ (∀ a, Memory.read t.mem a = 0#8) ∧ t.status = .running ∧ SameStreams s t ∧
    t.cfg = s.cfg

/-! ### The assembler -/

/-- 30_encoding.md R84, R86, R88: every canonical instruction with an implemented opcode has a spelling, and a file of such
spellings, one a line, assembles to the image of those instructions in order (that a spelling writes the immediate in
hexadecimal is the model's choice, notes/assumptions/15.md). -/
def Obligations.AssemblingSpellingsGivesTheImage : Prop :=
  (∀ i : Instr, i.canonical = true → i.opcode.implemented = true → (instrText i).isSome = true) ∧
  (∀ (c : Config) (p : List (Instr × List Char)), (∀ x ∈ p, instrText x.1 = some x.2) →
    assemble c (p.flatMap fun x => x.2 ++ ['\n']) = .ok (p.flatMap fun x => encodeBytes c x.1))

/-- 30_encoding.md R71, R84: whatever text assembles, the image is the concatenation of canonical words of implemented
opcodes. -/
def Obligations.AssemblerWritesCanonicalWords : Prop :=
  ∀ (c : Config) (text : List Char) (image : List Byte), assemble c text = .ok image →
    ∃ is : List Instr, (∀ i ∈ is, i.canonical = true ∧ i.opcode.implemented = true) ∧
      image = is.flatMap (encodeBytes c)

/-- 30_encoding.md R75, R86 (the spec's decision D23): a line gives no output exactly when it is empty, holds only spaces and
tabs, or its first other character is `;` or `#`; and a file of such lines only, each ended by a line feed with or without
a carriage return before it, the last one perhaps by nothing, gives an empty image and succeeds. -/
def Obligations.SkippedLinesGiveAnEmptyImage : Prop :=
  (∀ line : List Char, assembleLine line = .ok none ↔ BlankLine line ∨ CommentLine line) ∧
  (∀ (c : Config) (lines : List (List Char × Bool)) (last : List Char),
    (∀ line ∈ last :: lines.map Prod.fst, '\n' ∉ line ∧ (BlankLine line ∨ CommentLine line)) →
    assemble c ((lines.flatMap fun l => l.1 ++ if l.2 then ['\r', '\n'] else ['\n']) ++ last) = .ok [])

/-- 30_encoding.md R85 (the spec's decision D25): assembly fails exactly when some line is refused; the failure names the first
refused line, by its 1-based number, and there is no image. -/
def Obligations.FirstRefusedLineEndsTheAssembly : Prop :=
  ∀ (c : Config) (text : List Char) (f : AsmFailure),
    assemble c text = .error f ↔
      ∃ (before after : List (List Char)) (line : List Char), splitLines text = before ++ line :: after ∧
        f.line = before.length + 1 ∧ assembleLine line = .error f.error ∧
        ∀ l ∈ before, ∃ o, assembleLine l = .ok o
end

