-- ==== Sys2Proof/Laws/Assembler.lean ====
section
/-! SUPPORT. The laws of the assembler's lines: which lines are skipped, and the lines of a text put together from lines
and their terminators. -/

namespace Sys2Proof.Machine

theorem isBlank_iff (c : Char) : isBlank c = true ↔ c = ' ' ∨ c = '\t' := by simp [isBlank]

theorem skippedLine_cons_of_blank (c : Char) (cs : List Char) (h : isBlank c = true) :
    skippedLine (c :: cs) = skippedLine cs := by simp [skippedLine, h]

theorem skippedLine_cons_of_not_blank (c : Char) (cs : List Char) (h : ¬isBlank c = true) :
    skippedLine (c :: cs) = (c == ';' || c == '#') := by simp [skippedLine, h]

theorem blankLine_cons (c : Char) (cs : List Char) : BlankLine (c :: cs) ↔ isBlank c = true ∧ BlankLine cs := by
  simp [BlankLine, isBlank_iff]

/-- The head of a comment line is its `;` or `#`, or white space before it. -/
theorem commentLine_cons (c : Char) (cs : List Char) :
    CommentLine (c :: cs) ↔ (c = ';' ∨ c = '#') ∨ (isBlank c = true ∧ CommentLine cs) := by
  constructor
  · rintro ⟨_ | ⟨p, ps⟩, rest, d, he, hp, hd⟩
    · simp only [List.nil_append, List.cons.injEq] at he
      exact .inl (he.1 ▸ hd)
    · simp only [List.cons_append, List.cons.injEq] at he
      have := (blankLine_cons p ps).mp hp
      exact .inr ⟨he.1 ▸ this.1, ps, rest, d, he.2, this.2, hd⟩
  · rintro (h | ⟨hb, pre, rest, d, rfl, hp, hd⟩)
    · exact ⟨[], cs, c, rfl, by simp [BlankLine], h⟩
    · exact ⟨c :: pre, rest, d, rfl, (blankLine_cons c pre).mpr ⟨hb, hp⟩, hd⟩

/-- Which lines are skipped, by their characters (30_encoding.md R75). -/
theorem skippedLine_iff (line : List Char) : skippedLine line = true ↔ BlankLine line ∨ CommentLine line := by
  induction line with
  | nil => simp [skippedLine, BlankLine]
  | cons c cs ih =>
    rw [blankLine_cons, commentLine_cons]
    by_cases hb : isBlank c = true
    · have : ¬(c = ';' ∨ c = '#') := by
        rintro (rfl | rfl) <;> simp [isBlank] at hb
      rw [skippedLine_cons_of_blank c cs hb, ih]
      simp [hb, this]
    · rw [skippedLine_cons_of_not_blank c cs hb]
      simp [hb]

/-- A text without a line feed is one line, or none when it is empty. -/
theorem splitLines_of_no_newline (l : List Char) (h : '\n' ∉ l) : splitLines l = if l.isEmpty then [] else [l] := by
  induction l with
  | nil => rfl
  | cons c cs ih =>
    obtain ⟨hc, hcs⟩ : '\n' ≠ c ∧ '\n' ∉ cs := by simpa using h
    cases cs with
    | nil => simp [splitLines, Ne.symm hc]
    | cons d ds =>
      simp only [splitLines, Ne.symm hc, if_false]
      simp only [splitLines] at ih
      rw [ih hcs]
      simp

/-- The first line of a text, less the carriage return a line feed follows, and the lines after it. -/
theorem splitLines_append (l rest : List Char) (h : '\n' ∉ l) :
    splitLines (l ++ '\n' :: rest) =
      (if l.getLast? = some '\r' then l.dropLast else l) :: splitLines rest := by
  induction l with
  | nil => simp [splitLines]
  | cons c cs ih =>
    obtain ⟨hc, hcs⟩ : '\n' ≠ c ∧ '\n' ∉ cs := by simpa using h
    rw [List.cons_append, splitLines, if_neg (Ne.symm hc), ih hcs]
    cases cs with
    | nil => by_cases hr : c = '\r' <;> simp [hr]
    | cons d ds =>
      have hd : '\n' ≠ d := by
        intro e; exact hcs (e ▸ List.mem_cons_self)
      have hd' : ¬ d = '\n' := Ne.symm hd
      simp only [List.cons_append, List.head?_cons, Option.some.injEq, hd', decide_false, Bool.and_false,
        Bool.false_eq_true, if_false, List.getLast?_cons_cons]
      split <;> simp

end Sys2Proof.Machine
end

