-- ==== Sys2Proof/Laws/Memory.lean ====
section
/-! SUPPORT. The laws of memory: a read after a write, the canonical form kept, canonical memories that read alike
equal, words and images. -/

namespace Sys2Proof.Machine

/-! ### One byte -/

theorem Memory.read_eq_zero_of_lt_wfFrom (m : Memory) (lo a : Nat) (h : Memory.wfFrom lo m = true) (ha : a < lo) :
    Memory.read m a = 0#8 := by
  induction m generalizing lo with
  | nil => rfl
  | cons c m ih =>
    obtain ⟨k, b⟩ := c
    simp only [Memory.wfFrom, Bool.and_eq_true, decide_eq_true_eq] at h
    simp only [Memory.read]
    rw [if_neg (by omega)]
    exact ih (k + 1) h.2 (by omega)

/-- A read after a write to the same address. -/
theorem Memory.read_write_same (m : Memory) (lo a : Nat) (v : Byte) (h : Memory.wfFrom lo m = true) :
    Memory.read (Memory.write m a v) a = v := by
  induction m generalizing lo with
  | nil =>
    simp only [Memory.write]
    split <;> simp_all [Memory.read]
  | cons c m ih =>
    obtain ⟨k, b⟩ := c
    simp only [Memory.wfFrom, Bool.and_eq_true, decide_eq_true_eq] at h
    have hz := Memory.read_eq_zero_of_lt_wfFrom m (k + 1)
    simp only [Memory.write]
    split
    · simp only [Memory.read]
      rw [if_neg (by omega)]
      exact ih (k + 1) h.2
    · split
      · split
        · rw [hz a h.2 (by omega)]; simp_all
        · simp [Memory.read]
      · split
        · simp only [Memory.read]
          rw [if_neg (by omega), hz a h.2 (by omega)]; simp_all
        · simp [Memory.read]

/-- A write leaves every other address as it was. -/
theorem Memory.read_write_of_ne (m : Memory) (a c : Nat) (v : Byte) (hne : c ≠ a) :
    Memory.read (Memory.write m a v) c = Memory.read m c := by
  induction m with
  | nil =>
    simp only [Memory.write]
    split <;> simp [Memory.read]
    omega
  | cons d m ih =>
    obtain ⟨k, b⟩ := d
    simp only [Memory.write]
    split
    · simp only [Memory.read, ih]
    · split
      · split
        · simp only [Memory.read]; rw [if_neg (by omega)]
        · simp only [Memory.read]; rw [if_neg (by omega), if_neg (by omega)]
      · split
        · rfl
        · simp only [Memory.read]; rw [if_neg (by omega)]

theorem Memory.wfFrom_mono (m : Memory) (lo lo' : Nat) (h : Memory.wfFrom lo m = true) (hl : lo' ≤ lo) :
    Memory.wfFrom lo' m = true := by
  cases m with
  | nil => rfl
  | cons c m =>
    obtain ⟨k, b⟩ := c
    simp only [Memory.wfFrom, Bool.and_eq_true, decide_eq_true_eq] at h ⊢
    exact ⟨⟨⟨by omega, h.1.1.2⟩, h.1.2⟩, h.2⟩

theorem Memory.wfFrom_write (m : Memory) (lo a : Nat) (v : Byte) (h : Memory.wfFrom lo m = true) (hlo : lo ≤ a)
    (ha : a < memSize) : Memory.wfFrom lo (Memory.write m a v) = true := by
  induction m generalizing lo with
  | nil =>
    simp only [Memory.write]
    split
    · rfl
    · simp_all [Memory.wfFrom]
  | cons c m ih =>
    obtain ⟨k, b⟩ := c
    simp only [Memory.wfFrom, Bool.and_eq_true, decide_eq_true_eq] at h
    simp only [Memory.write]
    split
    · simp only [Memory.wfFrom, Bool.and_eq_true, decide_eq_true_eq]
      exact ⟨h.1, ih (k + 1) h.2 (by omega)⟩
    · split
      · split
        · exact Memory.wfFrom_mono m (k + 1) lo h.2 (by omega)
        · simp only [Memory.wfFrom, Bool.and_eq_true, decide_eq_true_eq]
          refine ⟨⟨⟨hlo, ha⟩, by simpa using ‹¬v = 0#8›⟩, Memory.wfFrom_mono m (k + 1) (a + 1) h.2 (by omega)⟩
      · split
        · simp only [Memory.wfFrom, Bool.and_eq_true, decide_eq_true_eq]; exact h
        · simp only [Memory.wfFrom, Bool.and_eq_true, decide_eq_true_eq]
          exact ⟨⟨⟨hlo, ha⟩, by simpa using ‹¬v = 0#8›⟩, ⟨⟨by omega, h.1.1.2⟩, h.1.2⟩, h.2⟩

/-- A byte write keeps the canonical form. -/
theorem Memory.wf_write (m : Memory) (a : Nat) (v : Byte) (h : Memory.wf m = true) (ha : a < memSize) :
    Memory.wf (Memory.write m a v) = true :=
  Memory.wfFrom_write m 0 a v h (Nat.zero_le a) ha

theorem Memory.ext_read_from (m n : Memory) (lo : Nat) (hm : Memory.wfFrom lo m = true) (hn : Memory.wfFrom lo n = true)
    (h : ∀ a, Memory.read m a = Memory.read n a) : m = n := by
  induction m generalizing lo n with
  | nil =>
    cases n with
    | nil => rfl
    | cons d n =>
      obtain ⟨k, b⟩ := d
      simp only [Memory.wfFrom, Bool.and_eq_true, bne_iff_ne, ne_eq] at hn
      have := h k
      simp only [Memory.read, if_true] at this
      exact absurd this.symm hn.1.2
  | cons c m ih =>
    obtain ⟨j, a⟩ := c
    have hm' := hm
    simp only [Memory.wfFrom, Bool.and_eq_true, bne_iff_ne, ne_eq, decide_eq_true_eq] at hm'
    cases n with
    | nil =>
      have := h j
      simp only [Memory.read, if_true] at this
      exact absurd this hm'.1.2
    | cons d n =>
      obtain ⟨k, b⟩ := d
      have hn' := hn
      simp only [Memory.wfFrom, Bool.and_eq_true, bne_iff_ne, ne_eq, decide_eq_true_eq] at hn'
      have hjk : j = k := by
        by_contra hne
        rcases Nat.lt_or_gt_of_ne hne with hlt | hgt
        · have := h j
          simp only [Memory.read, if_true, if_neg (Ne.symm hne)] at this
          rw [Memory.read_eq_zero_of_lt_wfFrom n (k + 1) j hn'.2 (by omega)] at this
          exact hm'.1.2 this
        · have := h k
          simp only [Memory.read, if_true, if_neg hne] at this
          rw [Memory.read_eq_zero_of_lt_wfFrom m (j + 1) k hm'.2 (by omega)] at this
          exact hn'.1.2 this.symm
      subst hjk
      have hab : a = b := by simpa [Memory.read] using h j
      subst hab
      refine congrArg _ (ih n (j + 1) hm'.2 hn'.2 fun x => ?_)
      by_cases hx : j = x
      · subst hx
        rw [Memory.read_eq_zero_of_lt_wfFrom m (j + 1) j hm'.2 (by omega),
          Memory.read_eq_zero_of_lt_wfFrom n (j + 1) j hn'.2 (by omega)]
      · simpa [Memory.read, hx] using h x

/-- Canonical memories that read alike are equal. -/
theorem Memory.ext_read (m n : Memory) (hm : Memory.wf m = true) (hn : Memory.wf n = true)
    (h : ∀ a, Memory.read m a = Memory.read n a) : m = n :=
  Memory.ext_read_from m n 0 hm hn h

/-! ### Bytes one after another -/

theorem Memory.wf_writeBytes (m : Memory) (a : Nat) (bs : List Byte) (h : Memory.wf m = true)
    (ha : a + bs.length ≤ memSize) : Memory.wf (Memory.writeBytes m a bs) = true := by
  induction bs generalizing m a with
  | nil => exact h
  | cons b bs ih =>
    simp only [List.length_cons] at ha
    exact ih _ _ (Memory.wf_write m a b h (by omega)) (by omega)

theorem Memory.read_writeBytes_of_outside (m : Memory) (a c : Nat) (bs : List Byte) (h : c < a ∨ a + bs.length ≤ c) :
    Memory.read (Memory.writeBytes m a bs) c = Memory.read m c := by
  induction bs generalizing m a with
  | nil => rfl
  | cons b bs ih =>
    simp only [List.length_cons] at h
    simp only [Memory.writeBytes]
    rw [ih _ _ (by omega), Memory.read_write_of_ne _ _ _ _ (by omega)]

theorem Memory.read_writeBytes_inside (m : Memory) (a k : Nat) (bs : List Byte) (h : Memory.wf m = true)
    (ha : a + bs.length ≤ memSize) (hk : k < bs.length) :
    Memory.read (Memory.writeBytes m a bs) (a + k) = bs[k] := by
  induction bs generalizing m a k with
  | nil => simp at hk
  | cons b bs ih =>
    simp only [List.length_cons] at ha hk
    simp only [Memory.writeBytes]
    cases k with
    | zero =>
      rw [Memory.read_writeBytes_of_outside _ _ _ _ (by omega)]
      exact Memory.read_write_same m 0 a b h
    | succ k =>
      have := ih (Memory.write m a b) (a + 1) k (Memory.wf_write m a b h (by omega)) (by omega) (by omega)
      rw [show a + (k + 1) = a + 1 + k by omega, this]
      rfl

/-! ### Words -/

@[simp] theorem wordBytes_length (o : ByteOrder) (w : Word) : (wordBytes o w).length = 8 := by
  cases o <;> rfl

/-- A word write keeps the canonical form. -/
theorem Memory.wf_writeWord (o : ByteOrder) (m : Memory) (a : Nat) (v : Word) (h : Memory.wf m = true)
    (ha : a + 8 ≤ memSize) : Memory.wf (Memory.writeWord o m a v) = true :=
  Memory.wf_writeBytes m a _ h (by simpa using ha)

/-- A word write leaves every byte outside the word as it was. -/
theorem Memory.read_writeWord_of_outside (o : ByteOrder) (m : Memory) (a c : Nat) (v : Word)
    (h : c < a ∨ a + 8 ≤ c) : Memory.read (Memory.writeWord o m a v) c = Memory.read m c :=
  Memory.read_writeBytes_of_outside m a c _ (by simpa using h)

/-- Each byte of a word write. -/
theorem Memory.read_writeWord_inside (o : ByteOrder) (m : Memory) (a k : Nat) (v : Word) (h : Memory.wf m = true)
    (ha : a + 8 ≤ memSize) (hk : k < 8) :
    Memory.read (Memory.writeWord o m a v) (a + k) = (wordBytes o v)[k]'(by simpa using hk) :=
  Memory.read_writeBytes_inside m a k _ h (by simpa using ha) (by simpa using hk)

/-! ### Images -/

theorem imageMemory_wfFrom (a : Nat) (bs : List Byte) (h : a + bs.length ≤ memSize) :
    Memory.wfFrom a (imageMemory a bs) = true := by
  induction bs generalizing a with
  | nil => rfl
  | cons b bs ih =>
    simp only [List.length_cons] at h
    have := ih (a + 1) (by omega)
    simp only [imageMemory]
    split
    · exact Memory.wfFrom_mono _ (a + 1) a this (by omega)
    · simp only [Memory.wfFrom, Bool.and_eq_true, decide_eq_true_eq]
      exact ⟨⟨⟨Nat.le_refl a, by omega⟩, by simpa using ‹¬b = 0#8›⟩, this⟩

/-- A loaded image is memory in canonical form. -/
theorem imageMemory_wf (bs : List Byte) (h : bs.length ≤ memSize) : Memory.wf (imageMemory 0 bs) = true :=
  imageMemory_wfFrom 0 bs (by simpa using h)

end Sys2Proof.Machine
end

