-- ==== Sys2Proof/Laws/Codec.lean ====
section
/-! SUPPORT. The laws of the codec: masks and registers, the bytes of a word, the fields of a word, the opcode map. -/

namespace Sys2Proof

/-! ### Masks -/

@[simp] theorem resolve_mask (r : Reg) : resolve r.mask = some r := by
  cases r <;> rfl

/-- A mask that resolves is the mask of the register it resolves to. -/
theorem mask_of_resolve (m : Byte) (r : Reg) (h : resolve m = some r) : m = r.mask := by
  revert h
  unfold resolve
  repeat' split
  all_goals simp_all [Reg.mask]
  all_goals (intro h; subst h; rfl)

/-- A mask resolves exactly when one bit of it is set. -/
theorem oneHot_eq_resolve (m : Byte) : oneHot m = (resolve m).isSome := by
  revert m; decide

/-! ### Bytes and fields of a word -/

/-- The bytes of a word joined again are the word. -/
theorem joinBytes_byteAt (w : Word) :
    joinBytes .little (byteAt w 0) (byteAt w 1) (byteAt w 2) (byteAt w 3) (byteAt w 4) (byteAt w 5) (byteAt w 6)
      (byteAt w 7) = w := by
  apply BitVec.eq_of_getLsbD_eq
  intro i hi
  simp only [joinBytes, byteAt, BitVec.getLsbD_append, BitVec.getLsbD_extractLsb']
  have : i < 8 ∨ i - 8 < 8 ∨ i - 8 - 8 < 8 ∨ i - 8 - 8 - 8 < 8 ∨ i - 8 - 8 - 8 - 8 < 8 ∨ i - 8 - 8 - 8 - 8 - 8 < 8
    ∨ i - 8 - 8 - 8 - 8 - 8 - 8 < 8 ∨ i - 8 - 8 - 8 - 8 - 8 - 8 - 8 < 8 := by omega
  interval_cases i <;> simp

/-- The same in the other byte order. -/
theorem joinBytes_big_byteAt (w : Word) :
    joinBytes .big (byteAt w 7) (byteAt w 6) (byteAt w 5) (byteAt w 4) (byteAt w 3) (byteAt w 2) (byteAt w 1)
      (byteAt w 0) = w :=
  joinBytes_byteAt w

/-- Joined bytes taken apart again are the bytes. -/
theorem wordBytes_joinBytes (o : ByteOrder) (b0 b1 b2 b3 b4 b5 b6 b7 : Byte) :
    wordBytes o (joinBytes o b0 b1 b2 b3 b4 b5 b6 b7) = [b0, b1, b2, b3, b4, b5, b6, b7] := by
  cases o
  all_goals
    simp only [wordBytes, joinBytes, byteAt, List.cons.injEq, and_true]
    refine ⟨?_, ?_, ?_, ?_, ?_, ?_, ?_, ?_⟩
  all_goals
    apply BitVec.eq_of_getLsbD_eq
    intro i hi
    simp only [BitVec.getLsbD_append, BitVec.getLsbD_extractLsb']
    interval_cases i <;> simp

/-- A word stored at an address is the word read there. -/
theorem Machine.Memory.readWord_writeWord (o : ByteOrder) (m : Machine.Memory) (a : Nat) (v : Word)
    (h : Machine.Memory.wf m = true) (ha : a + 8 ≤ memSize) :
    Machine.Memory.readWord o (Machine.Memory.writeWord o m a v) a = v := by
  have hb := fun k hk => Machine.Memory.read_writeWord_inside o m a k v h ha hk
  have h0 := hb 0 (by omega)
  rw [Nat.add_zero] at h0
  unfold Machine.Memory.readWord
  rw [h0, hb 1 (by omega), hb 2 (by omega), hb 3 (by omega), hb 4 (by omega), hb 5 (by omega), hb 6 (by omega),
    hb 7 (by omega)]
  cases o
  · exact joinBytes_byteAt v
  · exact joinBytes_big_byteAt v

/-- A word apart from the stored one reads as before. -/
theorem Machine.Memory.readWord_writeWord_of_apart (o : ByteOrder) (m : Machine.Memory) (a c : Nat) (v : Word)
    (h : c + 8 ≤ a ∨ a + 8 ≤ c) :
    Machine.Memory.readWord o (Machine.Memory.writeWord o m a v) c = Machine.Memory.readWord o m c := by
  have hb := fun k (hk : k < 8) => Machine.Memory.read_writeWord_of_outside o m a (c + k) v (by omega)
  have h0 := hb 0 (by omega)
  rw [Nat.add_zero] at h0
  unfold Machine.Memory.readWord
  rw [h0, hb 1 (by omega), hb 2 (by omega), hb 3 (by omega), hb 4 (by omega), hb 5 (by omega), hb 6 (by omega),
    hb 7 (by omega)]

/-- The fields of a packed word are the fields packed. -/
@[simp] theorem splitFields_joinFields (f : Fields) : splitFields (joinFields f) = f := by
  obtain ⟨op, r1, r2, imm⟩ := f
  simp only [splitFields, joinFields, Fields.mk.injEq]
  refine ⟨?_, ?_, ?_, ?_⟩
  all_goals
    apply BitVec.eq_of_getLsbD_eq
    intro i hi
    simp only [BitVec.getLsbD_append, BitVec.getLsbD_extractLsb']
    interval_cases i <;> simp

/-- The fields of a word packed again are the word. -/
@[simp] theorem joinFields_splitFields (w : Word) : joinFields (splitFields w) = w := by
  apply BitVec.eq_of_getLsbD_eq
  intro i hi
  simp only [splitFields, joinFields, BitVec.getLsbD_append, BitVec.getLsbD_extractLsb']
  interval_cases i <;> simp

/-! ### The opcode map -/

theorem Opcode.mem_all (op : Opcode) : op ∈ Opcode.all := by
  cases op <;> decide

theorem OpcodeMap.eq_of_valueOf_eq (m : OpcodeMap) (h : m.injective = true) (a b : Opcode)
    (hab : m.valueOf a = m.valueOf b) : a = b := by
  have hn : (Opcode.all.map m.valueOf).Nodup := by simpa [OpcodeMap.injective] using h
  exact List.inj_on_of_nodup_map hn (Opcode.mem_all a) (Opcode.mem_all b) hab

/-- Under an injective map the value of a name stands for that name. -/
theorem Config.opcodeOf_valueOf (c : Config) (h : c.opcodes.injective = true) (op : Opcode) :
    c.opcodeOf (c.opcodes.valueOf op) = some op := by
  unfold Config.opcodeOf
  cases hf : Opcode.all.find? fun o => c.opcodes.valueOf o == c.opcodes.valueOf op with
  | none => exact absurd (List.find?_eq_none.mp hf op (Opcode.mem_all op)) (by simp)
  | some o =>
    have := List.find?_some hf
    simp only [beq_iff_eq] at this
    rw [OpcodeMap.eq_of_valueOf_eq _ h _ _ this]

/-- A value that stands for a name is the name's value. -/
theorem Config.valueOf_of_opcodeOf (c : Config) (v : Half) (op : Opcode) (h : c.opcodeOf v = some op) :
    c.opcodes.valueOf op = v := by
  simpa using List.find?_some h

theorem Config.opcodes_injective_of_wf (c : Config) (h : c.wf = true) : c.opcodes.injective = true := by
  simp only [Config.wf, Bool.and_eq_true] at h
  exact h.1.1

end Sys2Proof
end

