-- ==== Sys2Proof/Laws/PerInstr.lean ====
section
/-! SUPPORT. A fact about every instruction as syntax, one lemma for each constructor: an instruction is its operation
and its three fields (30_encoding.md R60). -/

namespace Sys2Proof.Laws.Rebuild

/-- Building an instruction from its own operation and fields gives it back. -/
def Statement (i : Instr) : Prop := Instr.build i.opcode i.reg1 i.reg2 i.imm = i

theorem hlt (reg1 reg2 : Byte) (imm : Imm) : Statement (.hlt reg1 reg2 imm) := rfl
theorem nop (reg1 reg2 : Byte) (imm : Imm) : Statement (.nop reg1 reg2 imm) := rfl
theorem cmp (reg1 reg2 : Byte) (imm : Imm) : Statement (.cmp reg1 reg2 imm) := rfl
theorem add (reg1 reg2 : Byte) (imm : Imm) : Statement (.add reg1 reg2 imm) := rfl
theorem sub (reg1 reg2 : Byte) (imm : Imm) : Statement (.sub reg1 reg2 imm) := rfl
theorem mul (reg1 reg2 : Byte) (imm : Imm) : Statement (.mul reg1 reg2 imm) := rfl
theorem div (reg1 reg2 : Byte) (imm : Imm) : Statement (.div reg1 reg2 imm) := rfl
theorem and (reg1 reg2 : Byte) (imm : Imm) : Statement (.and reg1 reg2 imm) := rfl
theorem or (reg1 reg2 : Byte) (imm : Imm) : Statement (.or reg1 reg2 imm) := rfl
theorem xor (reg1 reg2 : Byte) (imm : Imm) : Statement (.xor reg1 reg2 imm) := rfl
theorem not (reg1 reg2 : Byte) (imm : Imm) : Statement (.not reg1 reg2 imm) := rfl
theorem jmp (reg1 reg2 : Byte) (imm : Imm) : Statement (.jmp reg1 reg2 imm) := rfl
theorem jeq (reg1 reg2 : Byte) (imm : Imm) : Statement (.jeq reg1 reg2 imm) := rfl
theorem jlt (reg1 reg2 : Byte) (imm : Imm) : Statement (.jlt reg1 reg2 imm) := rfl
theorem jle (reg1 reg2 : Byte) (imm : Imm) : Statement (.jle reg1 reg2 imm) := rfl
theorem jgt (reg1 reg2 : Byte) (imm : Imm) : Statement (.jgt reg1 reg2 imm) := rfl
theorem jge (reg1 reg2 : Byte) (imm : Imm) : Statement (.jge reg1 reg2 imm) := rfl
theorem mov (reg1 reg2 : Byte) (imm : Imm) : Statement (.mov reg1 reg2 imm) := rfl
theorem sto (reg1 reg2 : Byte) (imm : Imm) : Statement (.sto reg1 reg2 imm) := rfl
theorem ior (reg1 reg2 : Byte) (imm : Imm) : Statement (.ior reg1 reg2 imm) := rfl
theorem iow (reg1 reg2 : Byte) (imm : Imm) : Statement (.iow reg1 reg2 imm) := rfl
theorem jne (reg1 reg2 : Byte) (imm : Imm) : Statement (.jne reg1 reg2 imm) := rfl
theorem loa (reg1 reg2 : Byte) (imm : Imm) : Statement (.loa reg1 reg2 imm) := rfl
theorem sip (reg1 reg2 : Byte) (imm : Imm) : Statement (.sip reg1 reg2 imm) := rfl

end Sys2Proof.Laws.Rebuild
end

