-- ==== Sys2Proof/Laws/State.lean ====
section
/-! SUPPORT. One lemma for each field of the state under each update of Machine/Ops.lean, so that no proof unfolds a
record update; and the laws of the register file. -/

namespace Sys2Proof.Machine

/-! ### The register file -/

@[simp] theorem RegFile.read_write_same (f : RegFile) (r : Reg) (v : Word) : (f.write r v).read r = v := by
  cases r <;> rfl

theorem RegFile.read_write_of_ne (f : RegFile) (r q : Reg) (v : Word) (h : q ≠ r) : (f.write r v).read q = f.read q := by
  cases r <;> cases q <;> first | rfl | exact absurd rfl h

@[simp] theorem RegFile.read_zero (r : Reg) : RegFile.zero.read r = 0#64 := by
  cases r <;> rfl

/-- Two register files that read alike are equal. -/
theorem RegFile.ext_read (f g : RegFile) (h : ∀ r, f.read r = g.read r) : f = g := by
  obtain ⟨a0, a1, a2, a3, a4, a5, a6, a7⟩ := f
  obtain ⟨b0, b1, b2, b3, b4, b5, b6, b7⟩ := g
  have h0 := h .gp0
  have h1 := h .gp1
  have h2 := h .gp2
  have h3 := h .gp3
  have h4 := h .gp4
  have h5 := h .gp5
  have h6 := h .gp6
  have h7 := h .gp7
  simp only [RegFile.read] at h0 h1 h2 h3 h4 h5 h6 h7
  simp [h0, h1, h2, h3, h4, h5, h6, h7]

@[simp] theorem State.readReg_writeReg_same (s : State) (r : Reg) (v : Word) : (s.writeReg r v).readReg r = v :=
  RegFile.read_write_same s.regs r v

theorem State.readReg_writeReg_of_ne (s : State) (r q : Reg) (v : Word) (h : q ≠ r) :
    (s.writeReg r v).readReg q = s.readReg q :=
  RegFile.read_write_of_ne s.regs r q v h

/-! ### `writeReg` -/

@[simp] theorem State.writeReg_cfg (s : State) (r : Reg) (v : Word) : (s.writeReg r v).cfg = s.cfg := rfl
@[simp] theorem State.writeReg_regs (s : State) (r : Reg) (v : Word) : (s.writeReg r v).regs = s.regs.write r v := rfl
@[simp] theorem State.writeReg_ip (s : State) (r : Reg) (v : Word) : (s.writeReg r v).ip = s.ip := rfl
@[simp] theorem State.writeReg_af (s : State) (r : Reg) (v : Word) : (s.writeReg r v).af = s.af := rfl
@[simp] theorem State.writeReg_ef (s : State) (r : Reg) (v : Word) : (s.writeReg r v).ef = s.ef := rfl
@[simp] theorem State.writeReg_halt (s : State) (r : Reg) (v : Word) : (s.writeReg r v).halt = s.halt := rfl
@[simp] theorem State.writeReg_undef (s : State) (r : Reg) (v : Word) : (s.writeReg r v).undef = s.undef := rfl
@[simp] theorem State.writeReg_mem (s : State) (r : Reg) (v : Word) : (s.writeReg r v).mem = s.mem := rfl
@[simp] theorem State.writeReg_input (s : State) (r : Reg) (v : Word) : (s.writeReg r v).input = s.input := rfl
@[simp] theorem State.writeReg_inputEnded (s : State) (r : Reg) (v : Word) : (s.writeReg r v).inputEnded = s.inputEnded := rfl
@[simp] theorem State.writeReg_output (s : State) (r : Reg) (v : Word) : (s.writeReg r v).output = s.output := rfl

/-! ### `setIp` -/

@[simp] theorem State.setIp_cfg (s : State) (v : Word) : (s.setIp v).cfg = s.cfg := rfl
@[simp] theorem State.setIp_regs (s : State) (v : Word) : (s.setIp v).regs = s.regs := rfl
@[simp] theorem State.setIp_ip (s : State) (v : Word) : (s.setIp v).ip = v := rfl
@[simp] theorem State.setIp_af (s : State) (v : Word) : (s.setIp v).af = s.af := rfl
@[simp] theorem State.setIp_ef (s : State) (v : Word) : (s.setIp v).ef = s.ef := rfl
@[simp] theorem State.setIp_halt (s : State) (v : Word) : (s.setIp v).halt = s.halt := rfl
@[simp] theorem State.setIp_undef (s : State) (v : Word) : (s.setIp v).undef = s.undef := rfl
@[simp] theorem State.setIp_mem (s : State) (v : Word) : (s.setIp v).mem = s.mem := rfl
@[simp] theorem State.setIp_input (s : State) (v : Word) : (s.setIp v).input = s.input := rfl
@[simp] theorem State.setIp_inputEnded (s : State) (v : Word) : (s.setIp v).inputEnded = s.inputEnded := rfl
@[simp] theorem State.setIp_output (s : State) (v : Word) : (s.setIp v).output = s.output := rfl
@[simp] theorem State.setIp_readReg (s : State) (v : Word) (q : Reg) : (s.setIp v).readReg q = s.readReg q := rfl

/-! ### `orAf` -/

@[simp] theorem State.orAf_cfg (s : State) (m : Byte) : (s.orAf m).cfg = s.cfg := rfl
@[simp] theorem State.orAf_regs (s : State) (m : Byte) : (s.orAf m).regs = s.regs := rfl
@[simp] theorem State.orAf_ip (s : State) (m : Byte) : (s.orAf m).ip = s.ip := rfl
@[simp] theorem State.orAf_af (s : State) (m : Byte) : (s.orAf m).af = s.af ||| m := rfl
@[simp] theorem State.orAf_ef (s : State) (m : Byte) : (s.orAf m).ef = s.ef := rfl
@[simp] theorem State.orAf_halt (s : State) (m : Byte) : (s.orAf m).halt = s.halt := rfl
@[simp] theorem State.orAf_undef (s : State) (m : Byte) : (s.orAf m).undef = s.undef := rfl
@[simp] theorem State.orAf_mem (s : State) (m : Byte) : (s.orAf m).mem = s.mem := rfl
@[simp] theorem State.orAf_input (s : State) (m : Byte) : (s.orAf m).input = s.input := rfl
@[simp] theorem State.orAf_inputEnded (s : State) (m : Byte) : (s.orAf m).inputEnded = s.inputEnded := rfl
@[simp] theorem State.orAf_output (s : State) (m : Byte) : (s.orAf m).output = s.output := rfl
@[simp] theorem State.orAf_readReg (s : State) (m : Byte) (q : Reg) : (s.orAf m).readReg q = s.readReg q := rfl

/-! ### `orEf` -/

@[simp] theorem State.orEf_cfg (s : State) (m : Byte) : (s.orEf m).cfg = s.cfg := rfl
@[simp] theorem State.orEf_regs (s : State) (m : Byte) : (s.orEf m).regs = s.regs := rfl
@[simp] theorem State.orEf_ip (s : State) (m : Byte) : (s.orEf m).ip = s.ip := rfl
@[simp] theorem State.orEf_af (s : State) (m : Byte) : (s.orEf m).af = s.af := rfl
@[simp] theorem State.orEf_ef (s : State) (m : Byte) : (s.orEf m).ef = s.ef ||| m := rfl
@[simp] theorem State.orEf_halt (s : State) (m : Byte) : (s.orEf m).halt = s.halt := rfl
@[simp] theorem State.orEf_undef (s : State) (m : Byte) : (s.orEf m).undef = s.undef := rfl
@[simp] theorem State.orEf_mem (s : State) (m : Byte) : (s.orEf m).mem = s.mem := rfl
@[simp] theorem State.orEf_input (s : State) (m : Byte) : (s.orEf m).input = s.input := rfl
@[simp] theorem State.orEf_inputEnded (s : State) (m : Byte) : (s.orEf m).inputEnded = s.inputEnded := rfl
@[simp] theorem State.orEf_output (s : State) (m : Byte) : (s.orEf m).output = s.output := rfl
@[simp] theorem State.orEf_readReg (s : State) (m : Byte) (q : Reg) : (s.orEf m).readReg q = s.readReg q := rfl

/-! ### `setHalt` -/

@[simp] theorem State.setHalt_cfg (s : State) : (s.setHalt).cfg = s.cfg := rfl
@[simp] theorem State.setHalt_regs (s : State) : (s.setHalt).regs = s.regs := rfl
@[simp] theorem State.setHalt_ip (s : State) : (s.setHalt).ip = s.ip := rfl
@[simp] theorem State.setHalt_af (s : State) : (s.setHalt).af = s.af := rfl
@[simp] theorem State.setHalt_ef (s : State) : (s.setHalt).ef = s.ef := rfl
@[simp] theorem State.setHalt_halt (s : State) : (s.setHalt).halt = true := rfl
@[simp] theorem State.setHalt_undef (s : State) : (s.setHalt).undef = s.undef := rfl
@[simp] theorem State.setHalt_mem (s : State) : (s.setHalt).mem = s.mem := rfl
@[simp] theorem State.setHalt_input (s : State) : (s.setHalt).input = s.input := rfl
@[simp] theorem State.setHalt_inputEnded (s : State) : (s.setHalt).inputEnded = s.inputEnded := rfl
@[simp] theorem State.setHalt_output (s : State) : (s.setHalt).output = s.output := rfl
@[simp] theorem State.setHalt_readReg (s : State) (q : Reg) : (s.setHalt).readReg q = s.readReg q := rfl

/-! ### `setUndef` -/

@[simp] theorem State.setUndef_cfg (s : State) (r : UndefReason) : (s.setUndef r).cfg = s.cfg := rfl
@[simp] theorem State.setUndef_regs (s : State) (r : UndefReason) : (s.setUndef r).regs = s.regs := rfl
@[simp] theorem State.setUndef_ip (s : State) (r : UndefReason) : (s.setUndef r).ip = s.ip := rfl
@[simp] theorem State.setUndef_af (s : State) (r : UndefReason) : (s.setUndef r).af = s.af := rfl
@[simp] theorem State.setUndef_ef (s : State) (r : UndefReason) : (s.setUndef r).ef = s.ef := rfl
@[simp] theorem State.setUndef_halt (s : State) (r : UndefReason) : (s.setUndef r).halt = s.halt := rfl
@[simp] theorem State.setUndef_undef (s : State) (r : UndefReason) : (s.setUndef r).undef = some r := rfl
@[simp] theorem State.setUndef_mem (s : State) (r : UndefReason) : (s.setUndef r).mem = s.mem := rfl
@[simp] theorem State.setUndef_input (s : State) (r : UndefReason) : (s.setUndef r).input = s.input := rfl
@[simp] theorem State.setUndef_inputEnded (s : State) (r : UndefReason) : (s.setUndef r).inputEnded = s.inputEnded := rfl
@[simp] theorem State.setUndef_output (s : State) (r : UndefReason) : (s.setUndef r).output = s.output := rfl
@[simp] theorem State.setUndef_readReg (s : State) (r : UndefReason) (q : Reg) : (s.setUndef r).readReg q = s.readReg q := rfl

/-! ### `setMem` -/

@[simp] theorem State.setMem_cfg (s : State) (m : Memory) : (s.setMem m).cfg = s.cfg := rfl
@[simp] theorem State.setMem_regs (s : State) (m : Memory) : (s.setMem m).regs = s.regs := rfl
@[simp] theorem State.setMem_ip (s : State) (m : Memory) : (s.setMem m).ip = s.ip := rfl
@[simp] theorem State.setMem_af (s : State) (m : Memory) : (s.setMem m).af = s.af := rfl
@[simp] theorem State.setMem_ef (s : State) (m : Memory) : (s.setMem m).ef = s.ef := rfl
@[simp] theorem State.setMem_halt (s : State) (m : Memory) : (s.setMem m).halt = s.halt := rfl
@[simp] theorem State.setMem_undef (s : State) (m : Memory) : (s.setMem m).undef = s.undef := rfl
@[simp] theorem State.setMem_mem (s : State) (m : Memory) : (s.setMem m).mem = m := rfl
@[simp] theorem State.setMem_input (s : State) (m : Memory) : (s.setMem m).input = s.input := rfl
@[simp] theorem State.setMem_inputEnded (s : State) (m : Memory) : (s.setMem m).inputEnded = s.inputEnded := rfl
@[simp] theorem State.setMem_output (s : State) (m : Memory) : (s.setMem m).output = s.output := rfl
@[simp] theorem State.setMem_readReg (s : State) (m : Memory) (q : Reg) : (s.setMem m).readReg q = s.readReg q := rfl

/-! ### `setInput` -/

@[simp] theorem State.setInput_cfg (s : State) (l : List Byte) : (s.setInput l).cfg = s.cfg := rfl
@[simp] theorem State.setInput_regs (s : State) (l : List Byte) : (s.setInput l).regs = s.regs := rfl
@[simp] theorem State.setInput_ip (s : State) (l : List Byte) : (s.setInput l).ip = s.ip := rfl
@[simp] theorem State.setInput_af (s : State) (l : List Byte) : (s.setInput l).af = s.af := rfl
@[simp] theorem State.setInput_ef (s : State) (l : List Byte) : (s.setInput l).ef = s.ef := rfl
@[simp] theorem State.setInput_halt (s : State) (l : List Byte) : (s.setInput l).halt = s.halt := rfl
@[simp] theorem State.setInput_undef (s : State) (l : List Byte) : (s.setInput l).undef = s.undef := rfl
@[simp] theorem State.setInput_mem (s : State) (l : List Byte) : (s.setInput l).mem = s.mem := rfl
@[simp] theorem State.setInput_input (s : State) (l : List Byte) : (s.setInput l).input = l := rfl
@[simp] theorem State.setInput_inputEnded (s : State) (l : List Byte) : (s.setInput l).inputEnded = s.inputEnded := rfl
@[simp] theorem State.setInput_output (s : State) (l : List Byte) : (s.setInput l).output = s.output := rfl
@[simp] theorem State.setInput_readReg (s : State) (l : List Byte) (q : Reg) : (s.setInput l).readReg q = s.readReg q := rfl

/-! ### `outWrite` -/

@[simp] theorem State.outWrite_cfg (s : State) (b : Byte) : (s.outWrite b).cfg = s.cfg := rfl
@[simp] theorem State.outWrite_regs (s : State) (b : Byte) : (s.outWrite b).regs = s.regs := rfl
@[simp] theorem State.outWrite_ip (s : State) (b : Byte) : (s.outWrite b).ip = s.ip := rfl
@[simp] theorem State.outWrite_af (s : State) (b : Byte) : (s.outWrite b).af = s.af := rfl
@[simp] theorem State.outWrite_ef (s : State) (b : Byte) : (s.outWrite b).ef = s.ef := rfl
@[simp] theorem State.outWrite_halt (s : State) (b : Byte) : (s.outWrite b).halt = s.halt := rfl
@[simp] theorem State.outWrite_undef (s : State) (b : Byte) : (s.outWrite b).undef = s.undef := rfl
@[simp] theorem State.outWrite_mem (s : State) (b : Byte) : (s.outWrite b).mem = s.mem := rfl
@[simp] theorem State.outWrite_input (s : State) (b : Byte) : (s.outWrite b).input = s.input := rfl
@[simp] theorem State.outWrite_inputEnded (s : State) (b : Byte) : (s.outWrite b).inputEnded = s.inputEnded := rfl
@[simp] theorem State.outWrite_output (s : State) (b : Byte) : (s.outWrite b).output = s.output ++ [b] := rfl
@[simp] theorem State.outWrite_readReg (s : State) (b : Byte) (q : Reg) : (s.outWrite b).readReg q = s.readReg q := rfl

/-! ### `advanceIp` -/

@[simp] theorem State.advanceIp_cfg (s : State) : s.advanceIp.cfg = s.cfg := rfl
@[simp] theorem State.advanceIp_regs (s : State) : s.advanceIp.regs = s.regs := rfl
@[simp] theorem State.advanceIp_ip (s : State) : s.advanceIp.ip = s.ip + 8#64 := rfl
@[simp] theorem State.advanceIp_af (s : State) : s.advanceIp.af = s.af := rfl
@[simp] theorem State.advanceIp_ef (s : State) : s.advanceIp.ef = s.ef := rfl
@[simp] theorem State.advanceIp_halt (s : State) : s.advanceIp.halt = s.halt := rfl
@[simp] theorem State.advanceIp_undef (s : State) : s.advanceIp.undef = s.undef := rfl
@[simp] theorem State.advanceIp_mem (s : State) : s.advanceIp.mem = s.mem := rfl
@[simp] theorem State.advanceIp_input (s : State) : s.advanceIp.input = s.input := rfl
@[simp] theorem State.advanceIp_inputEnded (s : State) : s.advanceIp.inputEnded = s.inputEnded := rfl
@[simp] theorem State.advanceIp_output (s : State) : s.advanceIp.output = s.output := rfl
@[simp] theorem State.advanceIp_readReg (s : State) (q : Reg) : s.advanceIp.readReg q = s.readReg q := rfl

end Sys2Proof.Machine
end

