-- ==== Sys2Proof/Laws/Step.lean ====
section
/-! SUPPORT. Said once: everything an instruction, a tick and a step can do. Every meaning answers a next state, and
`Effect` lists the next states; `StepEffect` lists those of a step. Later proofs cite `exec_effect` and `step_effect`
and go by cases. -/

namespace Sys2Proof.Machine

/-! ### The access check -/

/-- An address passes the check exactly when it is at most `memSize - 8` and a multiple of 8 (20_memory.md R45). -/
theorem checkAddr_eq_none (a : Word) : checkAddr a = none ↔ a.toNat ≤ memSize - 8 ∧ a.extractLsb' 0 3 = 0#3 := by
  unfold checkAddr
  split
  · simp; omega
  · split <;> simp_all

theorem extractLow3_eq_zero (a : Word) : a.extractLsb' 0 3 = 0#3 ↔ a.toNat % 8 = 0 := by
  rw [← BitVec.toNat_inj]
  simp [BitVec.extractLsb'_toNat]

/-- The check in numbers: what passes. -/
theorem checkAddr_none_iff (a : Word) : checkAddr a = none ↔ a.toNat ≤ 0xFFFFF8 ∧ a.toNat % 8 = 0 := by
  rw [checkAddr_eq_none, extractLow3_eq_zero]
  exact Iff.rfl

/-- The check in numbers: what raises ADDR. -/
theorem checkAddr_addr_iff (a : Word) : checkAddr a = some .addr ↔ 0xFFFFF8 < a.toNat := by
  unfold checkAddr
  simp only [extractLow3_eq_zero, ne_eq, show memSize - 8 = 0xFFFFF8 from rfl]
  split
  · simp; omega
  · split <;> simp <;> omega

/-- The check in numbers: what raises MISALIGN. -/
theorem checkAddr_misalign_iff (a : Word) :
    checkAddr a = some .misalign ↔ a.toNat ≤ 0xFFFFF8 ∧ a.toNat % 8 ≠ 0 := by
  unfold checkAddr
  simp only [extractLow3_eq_zero, ne_eq, show memSize - 8 = 0xFFFFF8 from rfl]
  split
  · simp; omega
  · split <;> simp <;> omega

/-- Only the two address classes come out of the check. -/
theorem checkAddr_eq_some (a : Word) (f : FaultClass) (h : checkAddr a = some f) : f = .addr ∨ f = .misalign := by
  unfold checkAddr at h
  split at h
  · exact .inl (by simpa using h.symm)
  · split at h
    · exact .inr (by simpa using h.symm)
    · simp at h

/-- A checked access lies wholly in memory (20_memory.md R46). -/
theorem lt_memSize_of_checkAddr (a : Word) (h : checkAddr a = none) : a.toNat + 8 ≤ memSize := by
  have := ((checkAddr_eq_none a).mp h).1
  unfold memSize at *
  omega

/-! ### Fault classes -/

theorem bitMask_ne_zero (p : Fin 8) : bitMask p ≠ 0#8 := by
  revert p; decide

theorem bitMask_injective (p q : Fin 8) (h : bitMask p = bitMask q) : p = q := by
  revert p q; decide

theorem faultMask_ne_zero (c : Config) (f : FaultClass) : faultMask c f ≠ 0#8 := by
  cases f <;> exact bitMask_ne_zero _

/-- Under an allowed configuration the classes have different bits. -/
theorem faultMask_injective (c : Config) (hc : c.wf = true) (f g : FaultClass)
    (h : faultMask c f = faultMask c g) : f = g := by
  simp only [Config.wf, EfBits.distinct, Bool.and_eq_true, decide_eq_true_eq, List.nodup_cons, List.mem_cons,
    not_or, List.not_mem_nil, not_false_eq_true, and_true] at hc
  obtain ⟨-, ⟨h1, h2, h3⟩, ⟨h4, h5⟩, h6, -⟩ := hc
  cases f <;> cases g <;> first
    | rfl
    | (have := bitMask_injective _ _ h; simp_all)

/-! ### The shared shapes -/

theorem resolvePair_eq_some (m1 m2 : Byte) (r1 r2 : Reg) :
    resolvePair m1 m2 = some (r1, r2) ↔ resolve m1 = some r1 ∧ resolve m2 = some r2 := by
  unfold resolvePair
  cases resolve m1 <;> cases resolve m2 <;> simp

theorem resolvePair_eq_none (m1 m2 : Byte) :
    resolvePair m1 m2 = none ↔ resolve m1 = none ∨ resolve m2 = none := by
  unfold resolvePair
  cases resolve m1 <;> cases resolve m2 <;> simp

@[simp] theorem resolvePair_mask (r1 r2 : Reg) : resolvePair r1.mask r2.mask = some (r1, r2) := by
  simp [resolvePair_eq_some]

@[simp] theorem withN_eq (s : State) (body : State → Result) : withN s body = body s.advanceIp := rfl

@[simp] theorem withR_mask (r : Reg) (s : State) (body : Reg → State → Result) :
    withR r.mask s body = body r s.advanceIp := by
  simp [withR]

theorem withR_bad (m : Byte) (s : State) (body : Reg → State → Result) (h : resolve m = none) :
    withR m s body = .next s.badRegister := by
  simp [withR, h]

@[simp] theorem withRR_mask (r1 r2 : Reg) (s : State) (body : Reg → Reg → State → Result) :
    withRR r1.mask r2.mask s body = body r1 r2 s.advanceIp := by
  simp [withRR]

theorem withRR_bad (m1 m2 : Byte) (s : State) (body : Reg → Reg → State → Result)
    (h : resolve m1 = none ∨ resolve m2 = none) : withRR m1 m2 s body = .next s.badRegister := by
  simp [withRR, (resolvePair_eq_none m1 m2).mpr h]

/-! ### What an instruction can do -/

/-- The opcodes that write a general register with a computed value. -/
def Opcode.writesRegister (op : Opcode) : Bool :=
  match op with
  | .add | .sub | .mul | .div | .and | .or | .xor | .not | .mov => true
  | _ => false

/-- The jumps. -/
def Opcode.jumps (op : Opcode) : Bool :=
  match op with
  | .jmp | .jeq | .jlt | .jle | .jgt | .jge => true
  | _ => false

/-- The next states an instruction can give. -/
inductive Effect (s : State) (i : Instr) : State → Prop where
  | noHandler (h : i.form = .reserved ∨ (i.opcode = .sto ∧ s.cfg.stoImplemented = false)) :
      Effect s i s.unknownInstruction
  | badRegister (h : i.wellFormed = false) (hi : i.opcode.implemented = true)
      (hs : i.opcode = .sto → s.cfg.stoImplemented = true) : Effect s i s.badRegister
  | advance (h : i.opcode = .nop ∨ Opcode.jumps i.opcode = true) : Effect s i s.advanceIp
  | halt (h : i.opcode = .hlt) : Effect s i s.advanceIp.setHalt
  | compare (h : i.opcode = .cmp) (r1 r2 : Reg) (h1 : resolve i.reg1 = some r1) (h2 : resolve i.reg2 = some r2) :
      Effect s i (s.advanceIp.orAf (compareMask s.cfg (s.readReg r1) (s.readReg r2)))
  | register (h : Opcode.writesRegister i.opcode = true) (r1 : Reg) (h1 : resolve i.reg1 = some r1)
      (hd : i.opcode = .div → ∀ r2, resolve i.reg2 = some r2 → s.readReg r2 ≠ 0#64) (v : Word) :
      Effect s i (s.advanceIp.writeReg r1 v)
  | divByZero (h : i.opcode = .div) (r2 : Reg) (h2 : resolve i.reg2 = some r2) (hz : s.readReg r2 = 0#64) :
      Effect s i (s.advanceIp.stopUndefined .divByZero)
  | jump (h : Opcode.jumps i.opcode = true) (r1 : Reg) (h1 : resolve i.reg1 = some r1) :
      Effect s i (s.advanceIp.setIp (s.readReg r1))
  | store (h : i.opcode = .sto) (hs : s.cfg.stoImplemented = true) (r1 : Reg) (h1 : resolve i.reg1 = some r1)
      (hc : checkAddr (stoAddr i.imm) = none) :
      Effect s i (s.advanceIp.setMem (Memory.writeWord s.cfg.byteOrder s.mem (stoAddr i.imm).toNat (s.readReg r1)))
  | storeFault (h : i.opcode = .sto) (hs : s.cfg.stoImplemented = true) (r1 : Reg) (h1 : resolve i.reg1 = some r1)
      (f : FaultClass) (hc : checkAddr (stoAddr i.imm) = some f) : Effect s i (s.advanceIp.raise f)
  | takeByte (h : i.opcode = .ior) (r1 : Reg) (h1 : resolve i.reg1 = some r1) (b : Byte) (rest : List Byte)
      (hin : s.input = b :: rest) : Effect s i ((s.advanceIp.setInput rest).writeReg r1 (b.setWidth 64))
  | endOfInput (h : i.opcode = .ior) (r1 : Reg) (h1 : resolve i.reg1 = some r1) (hin : s.input = [])
      (he : s.inputEnded = true) : Effect s i (s.advanceIp.writeReg r1 Config.eofValue)
  | hold (h : i.opcode = .ior) (r1 : Reg) (h1 : resolve i.reg1 = some r1) (hin : s.input = [])
      (he : s.inputEnded = false) : Effect s i s
  | output (h : i.opcode = .iow) (r1 : Reg) (h1 : resolve i.reg1 = some r1) :
      Effect s i (s.advanceIp.outWrite (byteAt (s.readReg r1) 0))

theorem wellFormed_false_of_bad (i : Instr)
    (h : (i.form.readsReg1 = true ∧ resolve i.reg1 = none) ∨ (i.form.readsReg2 = true ∧ resolve i.reg2 = none)) :
    i.wellFormed = false := by
  unfold Instr.wellFormed
  rw [oneHot_eq_resolve, oneHot_eq_resolve]
  rcases h with h | h <;> simp [h.1, h.2]

/-- Forms R and RI: a bad `reg1`, or what the body does. -/
theorem effect_withR (s : State) (i : Instr) (body : Reg → State → Result) (hf : i.form.readsReg1 = true)
    (hi : i.opcode.implemented = true) (hs : i.opcode = .sto → s.cfg.stoImplemented = true)
    (hb : ∀ r1, resolve i.reg1 = some r1 → ∃ t, body r1 s.advanceIp = .next t ∧ Effect s i t) :
    ∃ t, withR i.reg1 s body = .next t ∧ Effect s i t := by
  cases hr : resolve i.reg1 with
  | none => exact ⟨_, withR_bad _ _ _ hr, .badRegister (wellFormed_false_of_bad i (.inl ⟨hf, hr⟩)) hi hs⟩
  | some r1 => simpa only [withR, hr] using hb r1 hr

/-- Form RR: a bad `reg1` or `reg2`, or what the body does. -/
theorem effect_withRR (s : State) (i : Instr) (body : Reg → Reg → State → Result) (hf : i.form = .rr)
    (hi : i.opcode.implemented = true) (hs : i.opcode = .sto → s.cfg.stoImplemented = true)
    (hb : ∀ r1 r2, resolve i.reg1 = some r1 → resolve i.reg2 = some r2 →
      ∃ t, body r1 r2 s.advanceIp = .next t ∧ Effect s i t) :
    ∃ t, withRR i.reg1 i.reg2 s body = .next t ∧ Effect s i t := by
  cases hp : resolvePair i.reg1 i.reg2 with
  | none =>
    have h := (resolvePair_eq_none _ _).mp hp
    refine ⟨_, withRR_bad _ _ _ _ h, .badRegister (wellFormed_false_of_bad i ?_) hi hs⟩
    simpa [hf, Form.readsReg1, Form.readsReg2] using h
  | some p =>
    obtain ⟨r1, r2⟩ := p
    have h := (resolvePair_eq_some _ _ _ _).mp hp
    simpa only [withRR, hp] using hb r1 r2 h.1 h.2

theorem effect_binaryOp (s : State) (i : Instr) (f : Word → Word → Word) (hf : i.form = .rr)
    (hi : i.opcode.implemented = true) (hs : i.opcode = .sto → s.cfg.stoImplemented = true)
    (hw : Opcode.writesRegister i.opcode = true) (hd : i.opcode ≠ .div) :
    ∃ t, binaryOp i.reg1 i.reg2 f s = .next t ∧ Effect s i t :=
  effect_withRR s i _ hf hi hs fun r1 _ h1 _ => ⟨_, rfl, .register hw r1 h1 (fun h => absurd h hd) _⟩

theorem effect_conditionalJump (s : State) (i : Instr) (t : JumpTest) (hf : i.form.readsReg1 = true)
    (hi : i.opcode.implemented = true) (hs : i.opcode = .sto → s.cfg.stoImplemented = true)
    (hj : Opcode.jumps i.opcode = true) : ∃ u, conditionalJump i.reg1 t s = .next u ∧ Effect s i u :=
  effect_withR s i _ hf hi hs fun r1 h1 => by
    refine ⟨_, rfl, ?_⟩
    split
    · exact .jump hj r1 h1
    · exact .advance (.inr hj)

/-- Every meaning answers a next state, and it is one of `Effect`. -/
theorem exec_effect (i : Instr) (s : State) : ∃ t, exec i s = .next t ∧ Effect s i t := by
  cases i with
  | hlt a b c => exact ⟨_, rfl, .halt rfl⟩
  | nop a b c => exact ⟨_, rfl, .advance (.inl rfl)⟩
  | jne a b c => exact ⟨_, rfl, .noHandler (.inl rfl)⟩
  | loa a b c => exact ⟨_, rfl, .noHandler (.inl rfl)⟩
  | sip a b c => exact ⟨_, rfl, .noHandler (.inl rfl)⟩
  | add a b c => exact effect_binaryOp s (.add a b c) _ rfl rfl nofun rfl nofun
  | sub a b c => exact effect_binaryOp s (.sub a b c) _ rfl rfl nofun rfl nofun
  | mul a b c => exact effect_binaryOp s (.mul a b c) _ rfl rfl nofun rfl nofun
  | and a b c => exact effect_binaryOp s (.and a b c) _ rfl rfl nofun rfl nofun
  | or a b c => exact effect_binaryOp s (.or a b c) _ rfl rfl nofun rfl nofun
  | xor a b c => exact effect_binaryOp s (.xor a b c) _ rfl rfl nofun rfl nofun
  | jeq a b c => exact effect_conditionalJump s (.jeq a b c) _ rfl rfl nofun rfl
  | jlt a b c => exact effect_conditionalJump s (.jlt a b c) _ rfl rfl nofun rfl
  | jle a b c => exact effect_conditionalJump s (.jle a b c) _ rfl rfl nofun rfl
  | jgt a b c => exact effect_conditionalJump s (.jgt a b c) _ rfl rfl nofun rfl
  | jge a b c => exact effect_conditionalJump s (.jge a b c) _ rfl rfl nofun rfl
  | cmp a b c =>
    simp only [exec, execCmp]
    exact effect_withRR s (.cmp a b c) _ rfl rfl nofun fun r1 r2 h1 h2 => ⟨_, rfl, .compare rfl r1 r2 h1 h2⟩
  | div a b c =>
    simp only [exec, execDiv]
    refine effect_withRR s (.div a b c) _ rfl rfl nofun fun r1 r2 h1 h2 => ?_
    by_cases hz : s.readReg r2 = 0#64
    · exact ⟨_, if_pos hz, .divByZero rfl r2 h2 hz⟩
    · exact ⟨_, if_neg hz, .register rfl r1 h1 (fun _ r h => Option.some.inj (h2.symm.trans h) ▸ hz) _⟩
  | not a b c =>
    simp only [exec, execNot]
    exact effect_withR s (.not a b c) _ rfl rfl nofun fun r1 h1 => ⟨_, rfl, .register rfl r1 h1 nofun _⟩
  | jmp a b c =>
    simp only [exec, execJmp]
    exact effect_withR s (.jmp a b c) _ rfl rfl nofun fun r1 h1 => ⟨_, rfl, .jump rfl r1 h1⟩
  | mov a b c =>
    simp only [exec, execMov]
    exact effect_withR s (.mov a b c) _ rfl rfl nofun fun r1 h1 => ⟨_, rfl, .register rfl r1 h1 nofun _⟩
  | iow a b c =>
    simp only [exec, execIow]
    exact effect_withR s (.iow a b c) _ rfl rfl nofun fun r1 h1 => ⟨_, rfl, .output rfl r1 h1⟩
  | sto a b c =>
    cases hs : s.cfg.stoImplemented with
    | false => exact ⟨_, by simp [exec, execSto, hs], .noHandler (.inr ⟨rfl, hs⟩)⟩
    | true =>
      simp only [exec, execSto, hs, if_true]
      refine effect_withR s (.sto a b c) _ rfl rfl (fun _ => hs) fun r1 h1 => ?_
      cases hc : checkAddr (stoAddr c) with
      | some f => exact ⟨_, rfl, .storeFault rfl hs r1 h1 f hc⟩
      | none => exact ⟨_, rfl, .store rfl hs r1 h1 hc⟩
  | ior a b c =>
    simp only [exec, execIor]
    refine effect_withR s (.ior a b c) _ rfl rfl nofun fun r1 h1 => ?_
    cases hin : s.input with
    | cons x rest => exact ⟨_, by simp [State.inRead, hin], .takeByte rfl r1 h1 x rest hin⟩
    | nil =>
      cases he : s.inputEnded with
      | true => exact ⟨_, by simp [State.inRead, hin, he], .endOfInput rfl r1 h1 hin he⟩
      | false => exact ⟨_, by simp [State.inRead, hin, he], .hold rfl r1 h1 hin he⟩

/-! ### What a step can do -/

/-- The next states a step can give. -/
inductive StepEffect (s : State) : State → Prop where
  | stopped (h : s.status = .halted ∨ s.status = .faulted) : StepEffect s s
  | fetchFault (hr : s.status = .running) (f : FaultClass) (h : checkAddr s.ip = some f) : StepEffect s (s.raise f)
  | noSuchOpcode (hr : s.status = .running) (hc : checkAddr s.ip = none) (h : s.current = none) :
      StepEffect s s.unknownInstruction
  | executed (hr : s.status = .running) (hc : checkAddr s.ip = none) (i : Instr) (h : s.current = some i) (t : State)
      (he : Effect s i t) : StepEffect s t

theorem status_running (s : State) : s.status = .running ↔ s.undef = none ∧ s.ef = 0#8 ∧ s.halt = false := by
  unfold State.status
  cases s.undef <;> simp
  split <;> simp_all

theorem status_undefined (s : State) : s.status = .undefined ↔ s.undef ≠ none := by
  unfold State.status
  cases s.undef with
  | some r => simp
  | none =>
    simp only [Option.isSome_none, Bool.false_eq_true, if_false, ne_eq, not_true_eq_false, iff_false]
    split
    · simp
    · split <;> simp

/-- The fetch of an address that passes the check. -/
theorem fetch_of_checkAddr (s : State) (h : checkAddr s.ip = none) :
    s.fetch = .word (Memory.readWord s.cfg.byteOrder s.mem s.ip.toNat) := by
  simp [State.fetch, h]

/-- The instruction of the next tick, when there is one. -/
theorem current_eq_some (s : State) (i : Instr) :
    s.current = some i ↔
      checkAddr s.ip = none ∧ decode s.cfg (Memory.readWord s.cfg.byteOrder s.mem s.ip.toNat) = .ok i := by
  unfold State.current State.fetch
  cases checkAddr s.ip with
  | some f => simp
  | none =>
    simp only [true_and]
    split <;> simp_all

/-- A running core executes the instruction it fetches. -/
theorem step_of_current (s : State) (i : Instr) (hr : s.status = .running) (h : s.current = some i) :
    step s = exec i s := by
  obtain ⟨hc, hd⟩ := (current_eq_some s i).mp h
  have hu := ((status_running s).mp hr).1
  simp [step, cycle, hu, hr, tick, fetch_of_checkAddr s hc, hd]

/-- Every step that answers a next state answers one of `StepEffect`. -/
theorem step_effect (s t : State) (h : step s = .next t) : StepEffect s t := by
  unfold step cycle at h
  cases hu : s.undef with
  | some r => simp [hu] at h
  | none =>
    simp only [hu] at h
    cases hs : s.status with
    | undefined => exact absurd hu ((status_undefined s).mp hs)
    | halted => simp only [hs, Host.Outcome.next.injEq] at h; exact h ▸ .stopped (.inl hs)
    | faulted => simp only [hs, Host.Outcome.next.injEq] at h; exact h ▸ .stopped (.inr hs)
    | running =>
      simp only [hs] at h
      unfold tick at h
      cases hc : checkAddr s.ip with
      | some f =>
        simp only [State.fetch, hc, Host.Outcome.next.injEq] at h
        exact h ▸ .fetchFault hs f hc
      | none =>
        rw [fetch_of_checkAddr s hc] at h
        simp only at h
        cases hd : decode s.cfg (Memory.readWord s.cfg.byteOrder s.mem s.ip.toNat) with
        | error e =>
          simp only [hd, Host.Outcome.next.injEq] at h
          refine h ▸ .noSuchOpcode hs hc ?_
          simp [State.current, fetch_of_checkAddr s hc, hd]
        | ok i =>
          simp only [hd] at h
          obtain ⟨u, hu', he⟩ := exec_effect i s
          rw [hu'] at h
          simp only [Host.Outcome.next.injEq] at h
          exact .executed hs hc i ((current_eq_some s i).mpr ⟨hc, hd⟩) t (h ▸ he)

end Sys2Proof.Machine
end

