-- ==== Sys2Proof/Tests/Slice0.lean ====
section
/-! SUPPORT. The model's own tests, each of one decision or one step, with expected results from spec/95_test_vectors.md
or worked out by hand from the rules; and, for every statement with hypotheses, a concrete state and operands that meet
them all together. -/

namespace Sys2Proof.Tests

open Sys2Proof Sys2Proof.Machine

/-! ### Helpers -/

/-- The reset state with `gp0`, `gp1` and `AF` set. -/
def start (gp0 gp1 : Word) (af : Byte) : State :=
  (((State.reset.writeReg .gp0 gp0).writeReg .gp1 gp1).orAf af)

/-- The next state of a step, if it answers one. -/
def after (s : State) : Option State :=
  match step s with
  | .next t => some t
  | .fault _ | .refused _ => none

/-- A word placed where the state fetches. -/
def put (w : Nat) (s : State) : State := s.withFetchWord 64 w

/-- One step on the word in that state gives that state, changed as `f` says. -/
abbrev Steps (w : Nat) (s : State) (f : State → State) : Prop := after (put w s) = some (f (put w s))

/-- The state with its `IP` 8, and a register written. -/
def wrote (r : Reg) (v : Word) (s : State) : State := (s.setIp 8#64).writeReg r v

/-- The state with its `IP` 8, and a bit set in `EF`. -/
def faulted (m : Byte) (s : State) : State := (s.setIp 8#64).orEf m

/-- The reset state under another configuration. -/
def under (f : Config → Config) : State := State.resetWith (f Config.default)

/-- Sign-extending immediates. -/
def sext (c : Config) : Config := { c with immExt := .sext }

/-- Corrected `jge`. -/
def corrected (c : Config) : Config := { c with jgeCond := .corrected }

/-- No handler for `sto`. -/
def noSto (c : Config) : Config := { c with stoImplemented := false }

/-- Big-endian memory. -/
def big (c : Config) : Config := { c with byteOrder := .big }

/-! ### Well-formedness: one ill-formed term for each check -/

theorem test_wf_accepts : Instr.wellFormed (.add 0x08 0x01 0) = true ∧ Instr.canonical (.add 0x08 0x01 0) = true := by
  decide
theorem test_wf_refuses_reg1 : Instr.wellFormed (.add 0x00 0x01 0) = false := by decide
theorem test_wf_refuses_reg1_two_bits : Instr.wellFormed (.jmp 0x81 0x00 0) = false := by decide
theorem test_wf_refuses_reg2 : Instr.wellFormed (.add 0x01 0x03 0) = false := by decide
theorem test_wf_ignores_unread : Instr.wellFormed (.hlt 0xFF 0xFF 0xDEAD) = true := by decide
theorem test_canonical_refuses_ill_formed : Instr.canonical (.mov 0x00 0x00 5) = false := by decide
theorem test_canonical_refuses_reg1 : Instr.canonical (.hlt 0xFF 0x00 0) = false := by decide
theorem test_canonical_refuses_reg2 : Instr.canonical (.not 0x02 0xFF 0) = false := by decide
theorem test_canonical_refuses_imm : Instr.canonical (.jmp 0x02 0x00 1) = false := by decide
theorem test_implemented_refuses_reserved : Opcode.implemented .jne = false ∧ Opcode.implemented .sto = true := by decide
theorem test_config_accepts : Config.default.wf = true := by decide
theorem test_config_refuses_opcodes :
    Config.wf { Config.default with opcodes := { OpcodeMap.default with nop := 0x0000 } } = false := by decide
theorem test_config_refuses_af : Config.wf { Config.default with af := { e := 0, g := 1, l := 1 } } = false := by decide
theorem test_config_refuses_ef :
    Config.wf { Config.default with ef := { addr := 0, unkinsn := 1, badreg := 0, misalign := 3 } } = false := by decide
theorem test_memory_refuses :
    Memory.wf [(3, 1#8), (2, 1#8)] = false ∧ Memory.wf [(3, 0#8)] = false ∧ Memory.wf [(memSize, 1#8)] = false := by
  decide

/-! ### Decoding: a word of every row, written from 30_encoding.md R60, R67 and 95_test_vectors.md section 2 -/

theorem test_decode_hlt : decodeTableWord 64 0x0000000000000000 = some (.hlt 0x00 0x00 0) := by decide
theorem test_decode_hlt_fields : decodeTableWord 64 0x0000DEAD0000FFFF = some (.hlt 0xFF 0xFF 0xDEAD) := by decide
theorem test_decode_nop : decodeTableWord 64 0x0000000000010000 = some (.nop 0x00 0x00 0) := by decide
theorem test_decode_cmp : decodeTableWord 64 0x0000000000020104 = some (.cmp 0x01 0x04 0) := by decide
theorem test_decode_add : decodeTableWord 64 0x0000000000030801 = some (.add 0x08 0x01 0) := by decide
theorem test_decode_sub : decodeTableWord 64 0x0000000000044001 = some (.sub 0x40 0x01 0) := by decide
theorem test_decode_mul : decodeTableWord 64 0x0000000000050280 = some (.mul 0x02 0x80 0) := by decide
theorem test_decode_div : decodeTableWord 64 0x0000000000060110 = some (.div 0x01 0x10 0) := by decide
theorem test_decode_and : decodeTableWord 64 0x0000000000070420 = some (.and 0x04 0x20 0) := by decide
theorem test_decode_or : decodeTableWord 64 0x0000000000080104 = some (.or 0x01 0x04 0) := by decide
theorem test_decode_xor : decodeTableWord 64 0x0000000000098040 = some (.xor 0x80 0x40 0) := by decide
theorem test_decode_not : decodeTableWord 64 0x00000000000A0200 = some (.not 0x02 0x00 0) := by decide
theorem test_decode_jmp : decodeTableWord 64 0x00000000000B1000 = some (.jmp 0x10 0x00 0) := by decide
theorem test_decode_jeq : decodeTableWord 64 0x00000000000C2000 = some (.jeq 0x20 0x00 0) := by decide
theorem test_decode_jlt : decodeTableWord 64 0x00000000000D0200 = some (.jlt 0x02 0x00 0) := by decide
theorem test_decode_jle : decodeTableWord 64 0x00000000000E4000 = some (.jle 0x40 0x00 0) := by decide
theorem test_decode_jgt : decodeTableWord 64 0x00000000000F0800 = some (.jgt 0x08 0x00 0) := by decide
theorem test_decode_jge : decodeTableWord 64 0x0000000000100400 = some (.jge 0x04 0x00 0) := by decide
theorem test_decode_mov : decodeTableWord 64 0x9ABCDEF000110400 = some (.mov 0x04 0x00 0x9ABCDEF0) := by decide
theorem test_decode_sto : decodeTableWord 64 0x0000001800120100 = some (.sto 0x01 0x00 0x18) := by decide
theorem test_decode_ior : decodeTableWord 64 0x0000000000138000 = some (.ior 0x80 0x00 0) := by decide
theorem test_decode_iow : decodeTableWord 64 0x0000000000140200 = some (.iow 0x02 0x00 0) := by decide
theorem test_decode_jne : decodeTableWord 64 0x0000000000150000 = some (.jne 0x00 0x00 0) := by decide
theorem test_decode_loa : decodeTableWord 64 0x0000000000160101 = some (.loa 0x01 0x01 0) := by decide
theorem test_decode_sip : decodeTableWord 64 0x0000000000170101 = some (.sip 0x01 0x01 0) := by decide
theorem test_decode_rejects : decode Config.default 0x0000000000180101#64 = .error (.noSuchOpcode 0x0018) ∧
    decodeTableWord 64 0xFFFFFFFFFFFFFFFF = none := by decide
theorem test_decode_truncated : decodeBytes Config.default [0, 1, 0x11, 0, 5, 0, 0] = .error .truncated := by decide
theorem test_decode_short_row : decodeTableWord 32 0xFFFFFFFF00030102 = some (.add 0x01 0x02 0) := by decide
theorem test_bytes_of_mov : encodeBytes Config.default (.mov 0x04 0x00 0x9ABCDEF0) =
    [0x00, 0x04, 0x11, 0x00, 0xF0, 0xDE, 0xBC, 0x9A] := by decide
theorem test_bytes_of_mov_big : encodeBytes (big Config.default) (.mov 0x04 0x00 0x9ABCDEF0) =
    [0x9A, 0xBC, 0xDE, 0xF0, 0x00, 0x11, 0x04, 0x00] := by decide

/-! ### One step of each instruction (95_test_vectors.md section 4) -/

theorem test_cmp_unsigned : Steps 0x0000000000020102 (start 0xFFFFFFFFFFFFFFFF 1 0) fun s =>
    (s.setIp 8).orAf 0x02 := by decide
theorem test_cmp_accumulates : Steps 0x0000000000020102 (start 3 5 0x02) fun s => (s.setIp 8).orAf 0x04 := by decide
theorem test_add_wraps : Steps 0x0000000000030102 (start 0xFFFFFFFFFFFFFFFF 1 0) (wrote .gp0 0) := by decide
theorem test_add_same_register : Steps 0x0000000000030101 (start 0x8000000000000001 0 0) (wrote .gp0 2) := by decide
theorem test_sub_wraps : Steps 0x0000000000040102 (start 0 1 0) (wrote .gp0 0xFFFFFFFFFFFFFFFF) := by decide
theorem test_sub_order : Steps 0x0000000000040102 (start 7 5 0) (wrote .gp0 2) := by decide
theorem test_mul_low : Steps 0x0000000000050102 (start 0xFFFFFFFFFFFFFFFF 2 0)
    (wrote .gp0 0xFFFFFFFFFFFFFFFE) := by decide
theorem test_mul_wraps : Steps 0x0000000000050102 (start 0x100000000 0x100000000 0) (wrote .gp0 0) := by decide
theorem test_div_unsigned : Steps 0x0000000000060102 (start 0xFFFFFFFFFFFFFFFF 2 0)
    (wrote .gp0 0x7FFFFFFFFFFFFFFF) := by decide
theorem test_div_zero : Steps 0x0000000000060102 (start 9 0 0) fun s =>
    (s.setIp 8).setUndef .divByZero := by decide
theorem test_and : Steps 0x0000000000070102 (start 0xF0F0 0xFF00 0) (wrote .gp0 0xF000) := by decide
theorem test_or : Steps 0x0000000000080102 (start 0xF0F0 0xFF00 0) (wrote .gp0 0xFFF0) := by decide
theorem test_xor : Steps 0x0000000000090102 (start 0xF0F0 0xFF00 0) (wrote .gp0 0x0FF0) := by decide
theorem test_xor_same_register : Steps 0x0000000000090101 (start 0xF0F0 0 0) (wrote .gp0 0) := by decide
theorem test_not : Steps 0x00000000000A0200 (start 0 0xFF 0) (wrote .gp1 0xFFFFFFFFFFFFFF00) := by decide
theorem test_not_ignores_reg2 : Steps 0x00000000000A02FF (start 0 0 0) (wrote .gp1 0xFFFFFFFFFFFFFFFF) := by decide
theorem test_badreg_reg1 : Steps 0x0000000000030001 (start 1 0 0) (faulted 0x04) := by decide
theorem test_badreg_reg2 : Steps 0x0000000000030103 (start 1 0 0) (faulted 0x04) := by decide
theorem test_jmp : Steps 0x00000000000B0200 (start 0 0x1000000 0) fun s => s.setIp 0x1000000 := by decide
theorem test_jmp_badreg : Steps 0x00000000000B0000 (start 0 0 0) (faulted 0x04) := by decide

/-- Whether a jump through `gp1` = 0x20 is taken for each `AF` from 0 to 7, in the order of 95_test_vectors.md 4.2. -/
def takenFor (c : Config) (w : Nat) : List Bool :=
  (List.range 8).map fun af =>
    after (put w { start 0 0x20 (BitVec.ofNat 8 af) with cfg := c })
      == some ((put w { start 0 0x20 (BitVec.ofNat 8 af) with cfg := c }).setIp 0x20)

theorem test_jeq_table : takenFor Config.default 0x00000000000C0200 =
    [false, true, false, true, false, true, false, true] := by decide
theorem test_jlt_table : takenFor Config.default 0x00000000000D0200 =
    [false, false, false, false, true, true, true, true] := by decide
theorem test_jle_table : takenFor Config.default 0x00000000000E0200 =
    [false, true, false, true, true, true, true, true] := by decide
theorem test_jgt_table : takenFor Config.default 0x00000000000F0200 =
    [false, false, true, true, false, false, true, true] := by decide
theorem test_jge_table : takenFor Config.default 0x0000000000100200 =
    [false, true, false, true, true, true, true, true] := by decide
theorem test_jge_corrected_table : takenFor (corrected Config.default) 0x0000000000100200 =
    [false, true, true, true, false, true, true, true] := by decide
theorem test_jeq_not_taken : Steps 0x00000000000C0200 (start 0 0x20 0) fun s => s.setIp 8 := by decide
theorem test_mov_zext : Steps 0xFFFFFFFF00110100 (start 0 0 0) (wrote .gp0 0xFFFFFFFF) := by decide
theorem test_mov_sext : Steps 0xFFFFFFFF00110100 (under sext) (wrote .gp0 0xFFFFFFFFFFFFFFFF) := by decide
theorem test_sto_top : (after (put 0x00FFFFF800120100 (start 0x1122334455667788 0 0))).map (fun t =>
    (t.ip, t.ef, bytesAt t.mem 0xFFFFF8)) =
    some (8, 0, [0x88, 0x77, 0x66, 0x55, 0x44, 0x33, 0x22, 0x11]) := by decide
theorem test_sto_range_first : Steps 0x0100000100120100 (start 0x1122334455667788 0 0) (faulted 0x01) := by decide
theorem test_sto_misaligned : Steps 0x0000010400120100 (start 0x1122334455667788 0 0) (faulted 0x08) := by decide
theorem test_sto_no_handler : Steps 0x0000010000120000 (under noSto) (faulted 0x02) := by decide
theorem test_ior_byte : Steps 0x0000000000130100 ((start 0 0 0).setInput [0xFF, 0x41]) fun s =>
    (wrote .gp0 0xFF s).setInput [0x41] := by decide
theorem test_ior_eof : Steps 0x0000000000130100 (start 0 0 0).endInput (wrote .gp0 Config.eofValue) := rfl
theorem test_ior_holds : Steps 0x0000000000130100 (start 0 0 0) fun s => s := by decide
theorem test_ior_badreg : Steps 0x0000000000130000 ((start 0 0 0).setInput [0x41]) (faulted 0x04) := by decide
theorem test_iow_low_byte : Steps 0x0000000000140200 (start 0 0x1FF 0) fun s => (s.setIp 8).outWrite 0xFF := by decide
theorem test_hlt : Steps 0x0000DEAD0000FFFF (start 0 0 0) fun s => (s.setIp 8).setHalt := by decide
theorem test_nop : Steps 0x0000000000010300 (start 0 0 0) fun s => s.setIp 8 := by decide
theorem test_jne_unkinsn_only : Steps 0x0000000000150000 (start 0 0 0) (faulted 0x02) := by decide
theorem test_loa : Steps 0x0000000000160101 (start 0 0 0) (faulted 0x02) := by decide
theorem test_sip : Steps 0x0000000000170101 (start 0 0 0) (faulted 0x02) := by decide
theorem test_unassigned_opcode : Steps 0x0000000000180101 (start 0 0 0) (faulted 0x02) := by decide

/-! ### Fetch checks (95_test_vectors.md 4.5) -/

theorem test_fetch_last_word : after (State.reset.setIp 0xFFFFF8) =
    some ((State.reset.setIp 0x1000000).setHalt) := by decide
theorem test_fetch_past_the_end : after (State.reset.setIp 0xFFFFF9) =
    some ((State.reset.setIp 0xFFFFF9).orEf 0x01) := by decide
theorem test_fetch_misaligned : after (State.reset.setIp 4) = some ((State.reset.setIp 4).orEf 0x08) := by decide

/-! ### The assembler (95_test_vectors.md sections 1 and 3) -/

/-- The word a line assembles to, or its refusal; none for a skipped line. -/
def lineWord (t : String) : Except AsmError (Option Word) :=
  match assembleLine t.toList with
  | .ok (some i) => .ok (some (encode Config.default i))
  | .ok none => .ok none
  | .error e => .error e

theorem test_asm_program : assemble Config.default "mov gp0, 0x5\r\nhlt".toList =
    .ok [0x00, 0x01, 0x11, 0x00, 0x05, 0, 0, 0, 0, 0, 0, 0, 0, 0, 0, 0] := by decide
theorem test_asm_comments : assemble Config.default "; header\n\n# note\n".toList = .ok [] := by decide
theorem test_asm_failure : assemble Config.default "hlt\nadd gp0, gp9\nfoo".toList =
    .error { line := 2, error := .unknownRegister } := by decide
theorem test_asm_mov : lineWord "MOV gp0,0x5" = .ok (some 0x0000000500110100) ∧
    lineWord "mov gp0, -1" = .ok (some 0xFFFFFFFF00110100) ∧
    lineWord "mov gp0, 4294967295" = .ok (some 0xFFFFFFFF00110100) ∧
    lineWord "mov gp0, -2147483648" = .ok (some 0x8000000000110100) := by decide
theorem test_asm_bad_immediate : ["mov gp0, 4294967296", "mov gp0, 0x100000000", "mov gp0, -0x5", "mov gp0, 0b101",
    "mov gp0, 0x", "mov gp0, 0X5", "mov gp0, 5 ; five"].map lineWord =
    List.replicate 7 (.error .badImmediate) := by decide
theorem test_asm_unknown_register : ["add gp0, gp9", "add gp0,  gp1", "add gp0 ,gp1", "add gp0, GP1",
    "jmp gp4 ; loop"].map lineWord = List.replicate 5 (.error .unknownRegister) := by decide
theorem test_asm_missing : ["add", "addgp0,gp1", "add gp0,"].map lineWord =
    List.replicate 3 (.error .missingOperand) ∧ lineWord "add gp0 gp1" = .error .missingComma := by decide
theorem test_asm_hlt : ["hlt", "HLT", "hlt ; done", "hltxyz"].map lineWord = List.replicate 4 (.ok (some 0)) := by
  decide
/-- 95_test_vectors.md lists `HaLt` as `hlt`; by R76 the line starts with no mnemonic (notes/assumptions/22.md). -/
theorem test_asm_halt_is_no_mnemonic : lineWord "HaLt" = .error .unknownMnemonic := by decide
theorem test_asm_unknown_mnemonic : ["  hlt", "jne gp0", "loa gp0, 0x10"].map lineWord =
    List.replicate 3 (.error .unknownMnemonic) := by decide
theorem test_asm_skipped : ["", "   ", "; comment", "   # comment"].map lineWord = List.replicate 4 (.ok none) := by decide
theorem test_asm_operands : lineWord "jmp gp4" = .ok (some 0x00000000000B1000) ∧
    lineWord "add gp3, gp0" = .ok (some 0x0000000000030801) ∧
    lineWord "sto gp0, 0x18" = .ok (some 0x0000001800120100) := by decide
theorem test_spelling : (instrText (.mov 0x04 0x00 0x9ABCDEF0)).map String.ofList = some "mov gp2, 0x9ABCDEF0" ∧
    (instrText (.sub 0x01 0x80 0)).map String.ofList = some "sub gp0, gp7" ∧
    instrText (.jne 0x00 0x00 0) = none := by decide

/-! ### Witnesses: what meets the hypotheses of each statement that has some -/

/-- The invariant, as a decision. -/
def meets (s : State) : Bool := s.cfg.wf && Memory.wf s.mem && s.afClean && s.efSingle && s.oneStop

theorem inv_of_meets (s : State) (h : meets s = true) : s.Inv := by
  simpa [meets, State.Inv, and_assoc] using h

/-- `k` steps, if each answers a next state. -/
def runs : Nat → State → Option State
  | 0, s => some s
  | k + 1, s =>
    match step s with
    | .next t => runs k t
    | .fault _ | .refused _ => none

theorem witness_DecodeOfEncodeIsTheInstruction : Config.default.wf = true ∧ (big (sext (corrected
    (noSto Config.default)))).wf = true := by decide

theorem witness_EncodeOfDecodeIsTheBytes : decodeBytes Config.default [0, 8, 3, 0, 0xFF, 0, 0, 0, 7] =
    .ok (.add 0x08 0x00 0xFF, [7]) := by decide

theorem witness_OpcodeAloneSelectsTheOperation_reserved : (put 0x0000000000150101 State.reset).cfg.wf = true ∧
    (put 0x0000000000150101 State.reset).status = .running ∧
    (put 0x0000000000150101 State.reset).fetch = .word 0x0000000000150101 ∧
    ∀ op ∈ Opcode.all, op.implemented = true →
      (0x0000000000150101#64).extractLsb' 16 16 ≠ Config.default.opcodes.valueOf op := by decide

theorem witness_OpcodeAloneSelectsTheOperation_unassigned :
    (put 0x00000000FFFF0101 State.reset).fetch = .word 0x00000000FFFF0101 ∧
    ∀ op ∈ Opcode.all, op.implemented = true →
      (0x00000000FFFF0101#64).extractLsb' 16 16 ≠ Config.default.opcodes.valueOf op := by decide

theorem witness_StepRunsTheDecodedInstruction : (put 0x30102 (State.reset.setIp 0xFFFFF8)).status = .running ∧
    (put 0x30102 (State.reset.setIp 0xFFFFF8)).ip.toNat ≤ 0xFFFFF8 ∧
    (put 0x30102 (State.reset.setIp 0xFFFFF8)).ip.toNat % 8 = 0 ∧
    decodeBytes Config.default (bytesAt (put 0x30102 (State.reset.setIp 0xFFFFF8)).mem 0xFFFFF8) =
      .ok (.add 0x01 0x02 0, []) := by decide

theorem witness_FetchBeyondMemoryRaisesAddr : (State.reset.setIp 0xFFFFF9).status = .running ∧
    0xFFFFF8 < (State.reset.setIp 0xFFFFF9).ip.toNat ∧ (State.reset.setIp 0x1000000).status = .running ∧
    0xFFFFF8 < (State.reset.setIp 0x1000000).ip.toNat := by decide

theorem witness_MisalignedFetchRaisesMisalign : (State.reset.setIp 0xFFFFF7).status = .running ∧
    (State.reset.setIp 0xFFFFF7).ip.toNat ≤ 0xFFFFF8 ∧ (State.reset.setIp 0xFFFFF7).ip.toNat % 8 ≠ 0 := by decide

theorem witness_ReservedOpcodesRaiseUnkinsn : assembleLine "sto gp0, 0x18".toList = .ok (some (.sto 0x01 0x00 0x18)) := by
  decide

/-- One state for each cause: a fetch out of range, a misaligned fetch, a `sto` of each kind, an opcode of each kind. -/
theorem witness_AddressAndOpcodeFaultCauses : ∀ s ∈ [State.reset.setIp 0xFFFFF9, State.reset.setIp 4,
      put 0x00FFFFF900120100 State.reset, put 0x00FFFFF700120100 State.reset, put 0x0000000000150101 State.reset,
      put 0x0000000000160101 State.reset, put 0x0000000000170101 State.reset, put 0x0000000000180101 State.reset,
      put 0x0000010000120100 (under noSto)],
    meets s = true ∧ s.status = .running ∧ ((after s).map (fun t => t.ef != 0)) = some true := by decide

theorem witness_AddressAndOpcodeFaultCauses_jump : (start 1 0 0x01).status = .running ∧
    ((start 1 0 0x01).readReg .gp0).toNat ≤ 0xFFFFF8 ∧ ((start 1 0 0x01).readReg .gp0).toNat % 8 ≠ 0 ∧
    (∃ t, exec (.jmp Reg.gp0.mask 0 0) (start 1 0 0x01) = .next t ∧ t.ip = (start 1 0 0x01).readReg .gp0) ∧
    (∃ t, exec (.jeq Reg.gp0.mask 0 0) (start 1 0 0x01) = .next t ∧ t.ip = (start 1 0 0x01).readReg .gp0) :=
  ⟨rfl, by decide, by decide, ⟨_, rfl, by decide⟩, ⟨_, rfl, by decide⟩⟩

theorem witness_BadRegisterFieldRaisesBadreg : ∀ i ∈ [Instr.add 0x00 0x01 0, .add 0x01 0x03 0, .jmp 0x81 0x00 0,
      .sto 0xFF 0x00 0x18], i.opcode.implemented = true ∧ (i.opcode = .sto → State.reset.cfg.stoImplemented = true) ∧
    ((i.form.readsReg1 = true ∧ resolve i.reg1 = none) ∨ (i.form.readsReg2 = true ∧ resolve i.reg2 = none)) := by decide

theorem witness_StoppedCoreNeverTicks : State.reset.setHalt.status = .halted ∧
    (State.reset.raise .addr).status = .faulted ∧ (State.reset.stopUndefined .divByZero).status = .undefined := by decide

theorem witness_DivGivesTheUnsignedQuotient : (start 17 5 0).readReg .gp1 ≠ 0#64 := by decide

theorem witness_DivByZeroIsTheUndefinedStop : (start 9 0 0).readReg .gp1 = 0#64 := by decide

theorem witness_AndOrXorAreBitwise : resolve 0x00 = none ∧ resolve 0x03 = none := by decide

theorem witness_JmpSetsIpToTheRegister : (start 8 0 0).readReg .gp0 = State.reset.ip + 8#64 ∧
    (start 0 0 0).readReg .gp0 = State.reset.ip ∧ (start 0xFFFFF9 4 0).status = .running ∧
    0xFFFFF8 < ((start 0xFFFFF9 4 0).readReg .gp0).toNat ∧ ((start 0xFFFFF9 4 0).readReg .gp1).toNat % 8 ≠ 0 := by decide

theorem witness_OnceTakenAlwaysTaken : RunsTo 1 (put 0x20102 (start 5 3 0x01)) ((put 0x20102 (start 5 3 0x01)).setIp
      8 |>.orAf 0x02) ∧ jumpTaken Config.default .eq (put 0x20102 (start 5 3 0x01)).af = true := ⟨rfl, by decide⟩

theorem witness_MovLoadsTheImmediate : State.reset.cfg.immExt = .zext ∧ (under sext).cfg.immExt = .sext := by decide

/-- The last address that passes the check, and the first. -/
theorem witness_StoWritesEightBytes : State.reset.Inv ∧ State.reset.cfg.stoImplemented = true ∧
    (0x00FFFFF8 : Imm).toNat ≤ 0xFFFFF8 ∧ (0x00FFFFF8 : Imm).toNat % 8 = 0 ∧ (0 : Imm).toNat % 8 = 0 :=
  ⟨inv_of_meets _ (by decide), by decide⟩

theorem witness_StoWritesEightBytes_big : (under big).Inv ∧ (under big).cfg.byteOrder = .big :=
  ⟨inv_of_meets _ (by decide), by decide⟩

theorem witness_BadStoAddressWritesNothing : State.reset.cfg.stoImplemented = true ∧ 0xFFFFF8 < (0x00FFFFF9 : Imm).toNat ∧
    (0x00FFFFF7 : Imm).toNat ≤ 0xFFFFF8 ∧ (0x00FFFFF7 : Imm).toNat % 8 ≠ 0 := by decide

theorem witness_StoWithoutHandlerRaisesUnkinsn : (under noSto).cfg.stoImplemented = false := by decide

theorem witness_StoIsSeenByTheNextFetch : State.reset.Inv ∧ State.reset.cfg.stoImplemented = true ∧
    (0x00FFFFF8 : Imm).toNat ≤ 0xFFFFF8 ∧ (0x00FFFFF8 : Imm).toNat % 8 = 0 ∧
    ∃ t, exec (.sto Reg.gp0.mask 0 0x00FFFFF8) State.reset = .next t :=
  ⟨inv_of_meets _ (by decide), by decide, by decide, by decide, _, rfl⟩

theorem witness_IorTakesTheNextByte : (State.reset.setInput [0x41, 0x42]).input = 0x41 :: [0x42] := by decide

theorem witness_IorAtEndOfStreamGivesEofValue : State.reset.endInput.input = [] ∧
    State.reset.endInput.inputEnded = true := by decide

theorem witness_IorWithoutInputHolds : State.reset.input = [] ∧ State.reset.inputEnded = false := by decide

theorem witness_HltSetsHalt : State.reset.status = .running := by decide

theorem witness_ResetAndLaunchMeetTheInvariant : Config.default.wf = true ∧ (launch Config.default [0, 1, 0x11, 0, 5, 0, 0, 0] [0x41] true).isSome =
    true := by decide

theorem witness_StepKeepsTheInvariant : State.reset.Inv ∧ ∃ t, step State.reset = .next t :=
  ⟨inv_of_meets _ (by decide), _, rfl⟩

/-- A fault of the fetch, and one after it. -/
theorem witness_FaultsArePrecise : ∀ s ∈ [State.reset.setIp 4, State.reset.setIp 0xFFFFF9,
      put 0x0000000000030001 State.reset], ((after s).map fun t => t.ef != s.ef) = some true := by decide

theorem witness_AfIsWrittenOnlyByCmp : ((after (put 0x20102 (start 5 3 0))).map fun t => t.af != 0) = some true ∧
    (∃ t, RunsTo 1 (put 0x20102 (start 5 3 0x01)) t) ∧ (start 5 3 0x01).af.getLsbD 0 = true ∧
    (∃ t, exec (.add 0x01 0x02 0) (start 5 3 0x01) = .next t) ∧
    (Instr.add 0x01 0x02 0).opcode ∉ [Opcode.jeq, .jlt, .jle, .jgt, .jge] :=
  ⟨by decide, ⟨_, rfl⟩, by decide, ⟨_, rfl⟩, by decide⟩

theorem witness_EfOnlyAccumulatesFaults : (∃ t, step (State.reset.setIp 4) = .next t) ∧
    (∃ t, RunsTo 2 (State.reset.raise .addr) t) ∧ (State.reset.raise .addr).ef.getLsbD 0 = true ∧
    (∃ t, exec (.add 0x01 0x02 0) State.reset = .next t) ∧ (State.reset.raise .addr).ef ≠ 0#8 :=
  ⟨⟨_, rfl⟩, ⟨_, rfl⟩, by decide, ⟨_, rfl⟩, by decide⟩

theorem witness_HaltIsSetOnlyByHlt : ((after State.reset).map fun t => t.halt != State.reset.halt) = some true ∧
    (∃ t, step State.reset.setHalt = .next t) ∧ State.reset.setHalt.halt = true := ⟨by decide, ⟨_, rfl⟩, rfl⟩

theorem witness_OnlyDivByZeroIsUndefined : ((after (put 0x60102 (start 9 0 0))).map fun t => t.undef != none) =
    some true := by decide

theorem witness_MemoryChangesOnlyBySto : ((after (put 0x0000010000120100 (start 7 0 0))).map fun t =>
      Memory.read t.mem 0x100 != Memory.read (put 0x0000010000120100 (start 7 0 0)).mem 0x100) = some true ∧
    Memory.wf State.reset.mem = true ∧ 0xFFFFF8 + 8 ≤ memSize ∧
    (State.reset.resetCore.loadImage [1, 2]).isSome = true := by decide

theorem witness_StreamsMoveOneItemInOrder : ((after (put 0x140200 (start 0 0x41 0))).map fun t => t.output) =
      some [0x41] ∧
    ((after (put 0x130100 (State.reset.setInput [0x41, 0x42]))).map fun t => t.input) = some [0x42] := by decide

theorem witness_InputArrivalTimeDoesNotMatter : (put 0x130100 (State.reset.setInput [0x41])).holding = false ∧
    (put 0x130100 (State.reset.setInput [0x41])).inputEnded = false ∧
    (∃ t, step (put 0x130100 (State.reset.setInput [0x41])) = .next t) ∧
    (put 0x130100 State.reset).holding = true := ⟨by decide, by decide, ⟨_, rfl⟩, by decide⟩

/-- The advance at the last word of memory, a jump, and a hold. -/
theorem witness_IpAfterATick : ∀ s ∈ [State.reset.setIp 0xFFFFF8, put 0xB0200 (start 0 0x20 0), put 0x130100 State.reset],
    s.status = .running ∧ s.ip.toNat ≤ 0xFFFFF8 ∧ s.ip.toNat % 8 = 0 ∧ (after s).isSome = true := by decide

theorem witness_OpcodeNumbersDoNotMatter : ∃ t, exec (.add 0x01 0x02 0) State.reset = .next t := ⟨_, rfl⟩

theorem witness_PortsAgreeWithTheStep : (put 0x140200 (start 0 0x141 0)).outByte = some 0x41 ∧
    (after (put 0x140200 (start 0 0x141 0))).isSome = true ∧ (put 0x130100 State.reset).outByte = none := by decide

/-- The `ior` with a byte, at end-of-stream, and holding. -/
theorem witness_PortsAgreeWithTheStep_ior : ∀ s ∈ [put 0x130100 (State.reset.setInput [0x41]),
      put 0x130100 State.reset.endInput, put 0x130100 State.reset],
    s.iorTarget = some .gp0 ∧ s.status = .running ∧ (s.inTake != s.holding) = true ∧
    s.current = some (.ior Reg.gp0.mask 0 0) := by decide

theorem witness_PortsAgreeWithTheStep_ior_steps : (∃ t, step (put 0x130100 State.reset.endInput) = .next t) ∧
    (∃ t, step (put 0x130100 (State.reset.setInput [0x41])) = .next t) ∧
    (∃ t, step (put 0x130100 State.reset) = .next t) ∧
    (put 0x130100 State.reset).inTake = false ∧ (put 0x130100 State.reset).holding = true ∧
    (put 0x130100 State.reset.endInput).inTake = true := ⟨⟨_, rfl⟩, ⟨_, rfl⟩, ⟨_, rfl⟩, by decide, by decide, by decide⟩

theorem witness_StatusAndDumpPorts : (State.reset.stopUndefined .divByZero).undef ≠ none ∧
    (State.reset.raise .misalign).undef = none ∧ (State.reset.raise .misalign).ef ≠ 0#8 ∧
    State.reset.setHalt.undef = none ∧ State.reset.setHalt.ef = 0#8 ∧ State.reset.setHalt.halt = true ∧
    State.reset.undef = none ∧ State.reset.ef = 0#8 ∧ State.reset.halt = false ∧ State.reset.status = .running ∧
    State.reset.setHalt.status ≠ .running := by decide

theorem witness_ImageIsLoadedVerbatim : [0x01#8, 0x00#8, 0x02#8].length ≤ memSize ∧
    (∃ t, step (put 0x10000 State.reset) = .next t) ∧ (put 0x10000 State.reset).ticking = some (.nop 0 0 0) :=
  ⟨by decide, ⟨_, rfl⟩, by decide⟩

/-- An image one byte larger than memory. -/
theorem witness_OversizedImageIsRefused : memSize < (List.replicate (memSize + 1) 0#8).length := by
  rw [List.length_replicate]; exact Nat.lt_succ_self _

theorem witness_AssemblingSpellingsGivesTheImage : ∀ i ∈ [Instr.hlt 0 0 0, .add 0x08 0x01 0, .jge 0x80 0x00 0,
      .mov 0x04 0x00 0xFFFFFFFF, .sto 0x01 0x00 0], i.canonical = true ∧ i.opcode.implemented = true ∧
    (instrText i).isSome = true := by decide

theorem witness_AssemblerWritesCanonicalWords : assemble Config.default "not gp1\n".toList =
    .ok [0x00, 0x02, 0x0A, 0x00, 0, 0, 0, 0] := by decide

/-- An empty line, a blank one, and a comment after white space, one ended by a carriage return and a line feed. -/
theorem witness_SkippedLinesGiveAnEmptyImage :
    ∀ line ∈ [' ', '\t', '#', 'n'] :: [([], false), (['\t', ' '], true)].map Prod.fst,
      '\n' ∉ line ∧ (BlankLine line ∨ CommentLine line) := by
  intro line h
  simp only [List.map_cons, List.map_nil, List.mem_cons, List.not_mem_nil, or_false] at h
  obtain rfl | rfl | rfl := h
  · exact ⟨by decide, .inr ⟨[' ', '\t'], ['n'], '#', rfl, by simp [BlankLine], .inr rfl⟩⟩
  · exact ⟨by decide, .inl (by simp [BlankLine])⟩
  · exact ⟨by decide, .inl (by simp [BlankLine])⟩

/-! ### Reset and the host -/

theorem test_reset_runs_hlt : after State.reset = some ((State.reset.setIp 8).setHalt) := by decide
theorem test_launch_end_to_end : (launch Config.default [0, 1, 0x11, 0, 5, 0, 0, 0] [] false).bind (runs 2) =
    some { (wrote .gp0 5 State.reset) with
      ip := 0x10, halt := true, mem := [(1, 0x01), (2, 0x11), (4, 0x05)] } := by decide
theorem test_clock_edge_reset : (match clockEdge true (State.reset.stopUndefined .divByZero) with
    | .next t => some t
    | .fault _ | .refused _ => none) = some State.reset := by decide

end Sys2Proof.Tests
end

section
/-! PROOFS. The configuration's part in a run (00_scope.md R9, 30_encoding.md R68): no step changes it, and the meaning
of an instruction commutes with renumbering the opcodes. -/

namespace Sys2Proof.Machine

/-! ### The configuration stays -/

theorem Effect.cfg_eq {s t : State} {i : Instr} (h : Effect s i t) : t.cfg = s.cfg := by
  cases h <;> rfl

theorem StepEffect.cfg_eq {s t : State} (h : StepEffect s t) : t.cfg = s.cfg := by
  cases h with
  | stopped => rfl
  | fetchFault => rfl
  | noSuchOpcode => rfl
  | executed _ _ _ _ _ he => exact he.cfg_eq

theorem step_cfg {s t : State} (h : step s = .next t) : t.cfg = s.cfg := (step_effect s t h).cfg_eq

/-! ### Renumbering the opcodes -/

/-- The state under another opcode map. -/
def State.withOpcodes (m : OpcodeMap) (s : State) : State := { s with cfg := { s.cfg with opcodes := m } }

/-- An answer under another opcode map. -/
def renumber (m : OpcodeMap) : Result → Result
  | .next t => .next (t.withOpcodes m)
  | .fault r => .fault r
  | .refused r => .refused r

@[simp] theorem renumber_next (m : OpcodeMap) (t : State) : renumber m (.next t) = .next (t.withOpcodes m) := rfl

@[simp] theorem State.withOpcodes_af (m : OpcodeMap) (s : State) : (s.withOpcodes m).af = s.af := rfl

@[simp] theorem State.withOpcodes_readReg (m : OpcodeMap) (s : State) (r : Reg) :
    (s.withOpcodes m).readReg r = s.readReg r := rfl

@[simp] theorem State.withOpcodes_inRead (m : OpcodeMap) (s : State) : (s.withOpcodes m).inRead = s.inRead := rfl

@[simp] theorem State.withOpcodes_stoImplemented (m : OpcodeMap) (s : State) :
    (s.withOpcodes m).cfg.stoImplemented = s.cfg.stoImplemented := rfl

@[simp] theorem State.withOpcodes_advanceIp (m : OpcodeMap) (s : State) :
    (s.withOpcodes m).advanceIp = s.advanceIp.withOpcodes m := rfl

@[simp] theorem jumpTaken_withOpcodes (m : OpcodeMap) (s : State) (t : JumpTest) (af : Byte) :
    jumpTaken (s.withOpcodes m).cfg t af = jumpTaken s.cfg t af := by
  cases t <;> rfl

section
variable {m : OpcodeMap} {s : State}

/-- Forms R and RI commute with renumbering when their bodies do. -/
theorem withR_withOpcodes (m1 : Byte) {body body' : Reg → State → Result}
    (hb : ∀ r, body' r (s.advanceIp.withOpcodes m) = renumber m (body r s.advanceIp)) :
    withR m1 (s.withOpcodes m) body' = renumber m (withR m1 s body) := by
  cases hr : resolve m1 with
  | none => simp only [withR_bad _ _ _ hr]; rfl
  | some r => simpa only [withR, hr, State.withOpcodes_advanceIp] using hb r

/-- Form RR commutes with renumbering when its body does. -/
theorem withRR_withOpcodes (m1 m2 : Byte) {body : Reg → Reg → State → Result}
    (hb : ∀ r1 r2, body r1 r2 (s.advanceIp.withOpcodes m) = renumber m (body r1 r2 s.advanceIp)) :
    withRR m1 m2 (s.withOpcodes m) body = renumber m (withRR m1 m2 s body) := by
  cases hp : resolvePair m1 m2 with
  | none => simp only [withRR_bad _ _ _ _ ((resolvePair_eq_none _ _).mp hp)]; rfl
  | some p => simpa only [withRR, hp, State.withOpcodes_advanceIp] using hb p.1 p.2

theorem binaryOp_withOpcodes (m1 m2 : Byte) (f : Word → Word → Word) :
    binaryOp m1 m2 f (s.withOpcodes m) = renumber m (binaryOp m1 m2 f s) :=
  withRR_withOpcodes m1 m2 fun _ _ => rfl

theorem conditionalJump_withOpcodes (m1 : Byte) (t : JumpTest) :
    conditionalJump m1 t (s.withOpcodes m) = renumber m (conditionalJump m1 t s) :=
  withR_withOpcodes m1 fun r => by
    rw [jumpTaken_withOpcodes, State.withOpcodes_af]
    split <;> rfl

theorem execDiv_withOpcodes (m1 m2 : Byte) : execDiv m1 m2 (s.withOpcodes m) = renumber m (execDiv m1 m2 s) :=
  withRR_withOpcodes m1 m2 fun r1 r2 => by
    rw [State.withOpcodes_readReg]
    split <;> rfl

theorem execSto_withOpcodes (m1 : Byte) (imm : Imm) :
    execSto m1 imm (s.withOpcodes m) = renumber m (execSto m1 imm s) := by
  unfold execSto
  rw [State.withOpcodes_stoImplemented]
  split
  · refine withR_withOpcodes m1 fun r => ?_
    cases checkAddr (stoAddr imm) with
    | some f => cases f <;> rfl
    | none => rfl
  · rfl

theorem execIor_withOpcodes (m1 : Byte) : execIor m1 (s.withOpcodes m) = renumber m (execIor m1 s) :=
  withR_withOpcodes m1 fun r => by
    rw [State.withOpcodes_inRead]
    cases s.advanceIp.inRead <;> rfl

/-- 30_encoding.md R68: an instruction means the same under every opcode map. The meanings that read the configuration
at all read its other parameters only. -/
theorem exec_withOpcodes (i : Instr) : exec i (s.withOpcodes m) = renumber m (exec i s) := by
  cases i with
  | hlt | nop | jne | loa | sip => rfl
  | add a b | sub a b | mul a b | and a b | or a b | xor a b => exact binaryOp_withOpcodes a b _
  | jeq a | jlt a | jle a | jgt a | jge a => exact conditionalJump_withOpcodes a _
  | cmp a b => simp only [exec, execCmp]; exact withRR_withOpcodes a b fun _ _ => rfl
  | not a => simp only [exec, execNot]; exact withR_withOpcodes a fun _ => rfl
  | jmp a => simp only [exec, execJmp]; exact withR_withOpcodes a fun _ => rfl
  | mov a b imm => simp only [exec, execMov]; exact withR_withOpcodes a fun _ => rfl
  | iow a => simp only [exec, execIow]; exact withR_withOpcodes a fun _ => rfl
  | div a b => exact execDiv_withOpcodes a b
  | sto a b imm => exact execSto_withOpcodes a imm
  | ior a => exact execIor_withOpcodes a

end

/-- Settles O49: every effect keeps the configuration, and `exec` commutes with renumbering. -/
theorem opcodeNumbersDoNotMatter : Obligations.OpcodeNumbersDoNotMatter := by
  refine ⟨fun s t h => step_cfg h, fun i s t m h => ?_⟩
  calc exec i (s.withOpcodes m)
    _ = renumber m (exec i s) := exec_withOpcodes i
    _ = .next (t.withOpcodes m) := by rw [h, renumber_next]

end Sys2Proof.Machine
end

section
/-! PROOFS. What a step does to `AF`, to the three stops `EF`, `HALT` and `UNDEF`, to memory and to `IP`, each said
once as a consequence of `step_effect` (10_state.md R24 to R34); and what a property every step keeps says of a run. -/

namespace Sys2Proof.Machine

/-! ### The instruction of a tick -/

theorem Instr.build_eq (i : Instr) : Instr.build i.opcode i.reg1 i.reg2 i.imm = i := by
  cases i <;> rfl

theorem Instr.eq_build_of_opcode {i : Instr} {op : Opcode} (h : i.opcode = op) :
    i = Instr.build op i.reg1 i.reg2 i.imm := h ▸ (Instr.build_eq i).symm

theorem ticking_of_current {s : State} {i : Instr} (hr : s.status = .running) (h : s.current = some i) :
    s.ticking = some i := by
  simp [State.ticking, hr, h]

/-- Only a running core's step changes anything (40_execution_cycle.md R100). -/
theorem eq_of_step_of_not_running {s t : State} (hs : s.status ≠ .running) (h : step s = .next t) : t = s := by
  cases step_effect s t h with
  | stopped => rfl
  | fetchFault hr | noSuchOpcode hr | executed hr => exact absurd hr hs

/-! ### `AF` -/

/-- A compare sets the bit `E`, `G` or `L` (41_alu.md R120). -/
theorem compareMask_cases (c : Config) (a b : Word) :
    compareMask c a b = eqMask c ∨ compareMask c a b = gtMask c ∨ compareMask c a b = ltMask c := by
  unfold compareMask
  split
  · exact .inl rfl
  · split
    · exact .inr (.inl rfl)
    · exact .inr (.inr rfl)

theorem Effect.af {s t : State} {i : Instr} (h : Effect s i t) :
    t.af = s.af ∨ i.opcode = .cmp ∧ ∃ a b, t.af = s.af ||| compareMask s.cfg a b := by
  cases h with
  | compare hop => exact .inr ⟨hop, _, _, rfl⟩
  | _ => exact .inl rfl

/-- A step leaves `AF` as it is, or ticks a `cmp` and ORs the bit of a compare in (10_state.md R28). -/
theorem step_af {s t : State} (h : step s = .next t) :
    t.af = s.af ∨ ∃ (m1 m2 : Byte) (imm : Imm) (a b : Word),
      s.ticking = some (.cmp m1 m2 imm) ∧ t.af = s.af ||| compareMask s.cfg a b := by
  cases step_effect s t h with
  | stopped | fetchFault | noSuchOpcode => exact .inl rfl
  | executed hr _ i hcur _ he =>
    refine he.af.imp_right fun ⟨hop, a, b, haf⟩ => ?_
    exact ⟨_, _, _, a, b, Instr.eq_build_of_opcode hop ▸ ticking_of_current hr hcur, haf⟩

/-- The bit of a compare is one of `AF`'s own (10_state.md R27). -/
theorem compareMask_and_not_afBits (c : Config) (a b : Word) :
    compareMask c a b &&& ~~~(eqMask c ||| gtMask c ||| ltMask c) = 0#8 := by
  obtain h | h | h := compareMask_cases c a b <;> (rw [h]; ext n hn; simp +contextual)

theorem step_afClean {s t : State} (h : step s = .next t) (hs : s.afClean = true) : t.afClean = true := by
  simp only [State.afClean, beq_iff_eq, step_cfg h] at hs ⊢
  obtain haf | ⟨_, _, _, a, b, -, haf⟩ := step_af h
  · rw [haf, hs]
  · rw [haf, BitVec.and_or_distrib_right, hs, compareMask_and_not_afBits, BitVec.or_zero]

/-! ### `EF`, `HALT` and `UNDEF` -/

/-- What a step can do to the three stops: nothing, or raise a fault, or tick a `hlt`, or tick a `div` by zero
(10_state.md R30 to R32). -/
inductive StopChange (s t : State) : Prop where
  | same (hef : t.ef = s.ef) (hhalt : t.halt = s.halt) (hundef : t.undef = s.undef)
  | fault (f : FaultClass) (hef : t.ef = s.ef ||| faultMask s.cfg f) (hhalt : t.halt = s.halt)
      (hundef : t.undef = s.undef)
  | halt (m1 m2 : Byte) (imm : Imm) (hi : s.ticking = some (.hlt m1 m2 imm)) (hef : t.ef = s.ef)
      (hhalt : t.halt = true) (hundef : t.undef = s.undef)
  | undefined (m1 : Byte) (r2 : Reg) (imm : Imm) (hi : s.ticking = some (.div m1 r2.mask imm))
      (hz : s.readReg r2 = 0#64) (hef : t.ef = s.ef) (hhalt : t.halt = s.halt) (hundef : t.undef = some .divByZero)

theorem Effect.stopChange {s t : State} {i : Instr} (h : Effect s i t) (hi : s.ticking = some i) :
    StopChange s t := by
  cases h with
  | noHandler => exact .fault .unkinsn rfl rfl rfl
  | badRegister => exact .fault .badreg rfl rfl rfl
  | storeFault _ _ _ _ f => exact .fault f rfl rfl rfl
  | halt hop => exact .halt _ _ _ (Instr.eq_build_of_opcode hop ▸ hi) rfl rfl rfl
  | divByZero hop r2 h2 hz =>
    refine .undefined i.reg1 r2 i.imm ?_ hz rfl rfl rfl
    rw [hi, ← mask_of_resolve _ _ h2]
    exact congrArg some (Instr.eq_build_of_opcode hop)
  | _ => exact .same rfl rfl rfl

theorem step_stopChange {s t : State} (h : step s = .next t) : StopChange s t := by
  cases step_effect s t h with
  | stopped => exact .same rfl rfl rfl
  | fetchFault _ f => exact .fault f rfl rfl rfl
  | noSuchOpcode => exact .fault .unkinsn rfl rfl rfl
  | executed hr _ i hcur _ he => exact he.stopChange (ticking_of_current hr hcur)

/-- A step leaves `EF` as it is or ORs one class's bit in (10_state.md R30). -/
theorem step_ef {s t : State} (h : step s = .next t) : t.ef = s.ef ∨ ∃ f, t.ef = s.ef ||| faultMask s.cfg f := by
  cases step_stopChange h with
  | fault f hef => exact .inr ⟨f, hef⟩
  | same hef | halt _ _ _ _ hef | undefined _ _ _ _ _ hef => exact .inl hef

theorem efSingle_iff (s : State) : s.efSingle = true ↔ s.ef = 0#8 ∨ ∃ f, s.ef = faultMask s.cfg f := by
  simp only [State.efSingle, Bool.or_eq_true, beq_iff_eq]
  constructor
  · rintro ((((h | h) | h) | h) | h)
    exacts [.inl h, .inr ⟨_, h⟩, .inr ⟨_, h⟩, .inr ⟨_, h⟩, .inr ⟨_, h⟩]
  · rintro (h | ⟨f, h⟩)
    · simp [h]
    · cases f <;> simp [h]

theorem step_efSingle {s t : State} (hr : s.status = .running) (h : step s = .next t) : t.efSingle = true := by
  obtain ⟨-, hef0, -⟩ := (status_running s).mp hr
  rw [efSingle_iff, step_cfg h]
  simpa only [hef0, BitVec.zero_or] using step_ef h

theorem step_oneStop {s t : State} (hr : s.status = .running) (h : step s = .next t) : t.oneStop = true := by
  obtain ⟨hu0, hef0, hh0⟩ := (status_running s).mp hr
  unfold State.oneStop
  cases step_stopChange h with
  | fault f hef hhalt hundef => simp [hhalt, hundef, hh0, hu0]
  | halt _ _ _ _ hef hhalt hundef => simp [hef, hundef, hef0, hu0]
  | same hef hhalt | undefined _ _ _ _ _ hef hhalt => simp [hef, hhalt, hef0, hh0]

/-! ### Memory -/

/-- Only a `sto` changes memory, and the word it writes lies wholly in memory (20_memory.md R46). -/
theorem Effect.mem_wf {s t : State} {i : Instr} (h : Effect s i t) (hs : Memory.wf s.mem = true) :
    Memory.wf t.mem = true := by
  cases h with
  | store _ _ _ _ hc => exact Memory.wf_writeWord _ _ _ _ hs (lt_memSize_of_checkAddr _ hc)
  | _ => exact hs

theorem step_mem_wf {s t : State} (h : step s = .next t) (hs : Memory.wf s.mem = true) : Memory.wf t.mem = true := by
  cases step_effect s t h with
  | stopped | fetchFault | noSuchOpcode => exact hs
  | executed _ _ _ _ _ he => exact he.mem_wf hs

/-- Settles O38: a stopped core stays as it is, and each part of the invariant is kept by a running core's step. -/
theorem stepKeepsTheInvariant : Obligations.StepKeepsTheInvariant := by
  intro s t hinv h
  by_cases hr : s.status = .running
  · obtain ⟨hcfg, hmem, haf, -, -⟩ := hinv
    exact ⟨step_cfg h ▸ hcfg, step_mem_wf h hmem, step_afClean h haf, step_efSingle hr h, step_oneStop hr h⟩
  · exact eq_of_step_of_not_running hr h ▸ hinv

end Sys2Proof.Machine
end

section
/-! PROOFS. No instruction but a conditional jump reads `AF`, and none reads `EF` (10_state.md R28, R30): setting more
bits of them before an instruction and setting them after it come to the same. -/

namespace Sys2Proof.Machine

/-- An answer with its next state updated. -/
def mapNext (g : State → State) : Result → Result
  | .next t => .next (g t)
  | .fault r => .fault r
  | .refused r => .refused r

@[simp] theorem mapNext_next (g : State → State) (t : State) : mapNext g (.next t) = .next (g t) := rfl

/-! ### An update of the state that the operand forms do not see -/

section
variable {g : State → State} {s : State}

/-- Forms R and RI commute with an update when a bad register field and the body do. -/
theorem withR_mapNext (hadv : (g s).advanceIp = g s.advanceIp) (hbad : (g s).badRegister = g s.badRegister) (m1 : Byte)
    {body body' : Reg → State → Result} (hb : ∀ r, body' r (g s.advanceIp) = mapNext g (body r s.advanceIp)) :
    withR m1 (g s) body' = mapNext g (withR m1 s body) := by
  cases hr : resolve m1 with
  | none => simp only [withR_bad _ _ _ hr, hbad, mapNext_next]
  | some r => simpa only [withR, hr, hadv] using hb r

/-- Form RR commutes with an update when a bad register field and the body do. -/
theorem withRR_mapNext (hadv : (g s).advanceIp = g s.advanceIp) (hbad : (g s).badRegister = g s.badRegister)
    (m1 m2 : Byte) {body : Reg → Reg → State → Result}
    (hb : ∀ r1 r2, body r1 r2 (g s.advanceIp) = mapNext g (body r1 r2 s.advanceIp)) :
    withRR m1 m2 (g s) body = mapNext g (withRR m1 m2 s body) := by
  cases hp : resolvePair m1 m2 with
  | none => simp only [withRR_bad _ _ _ _ ((resolvePair_eq_none _ _).mp hp), hbad, mapNext_next]
  | some p => simpa only [withRR, hp, hadv] using hb p.1 p.2

end

/-! ### More bits in `AF` and `EF` -/

/-- The state with more bits set in `AF` and `EF`. -/
def State.orFlags (a e : Byte) (s : State) : State := (s.orAf a).orEf e

@[simp] theorem State.orFlags_cfg (a e : Byte) (s : State) : (s.orFlags a e).cfg = s.cfg := rfl
@[simp] theorem State.orFlags_af (a e : Byte) (s : State) : (s.orFlags a e).af = s.af ||| a := rfl
@[simp] theorem State.orFlags_readReg (a e : Byte) (s : State) (r : Reg) :
    (s.orFlags a e).readReg r = s.readReg r := rfl
@[simp] theorem State.orFlags_inRead (a e : Byte) (s : State) : (s.orFlags a e).inRead = s.inRead := rfl

theorem State.advanceIp_orFlags (a e : Byte) (s : State) :
    (s.orFlags a e).advanceIp = s.advanceIp.orFlags a e := rfl

theorem State.orAf_orFlags (a e m : Byte) (s : State) : (s.orFlags a e).orAf m = (s.orAf m).orFlags a e := by
  simp only [State.orFlags, State.orAf, State.orEf, BitVec.or_assoc, BitVec.or_comm a m]

theorem State.raise_orFlags (a e : Byte) (s : State) (f : FaultClass) :
    (s.orFlags a e).raise f = (s.raise f).orFlags a e := by
  simp only [State.raise, State.orFlags, State.orAf, State.orEf, BitVec.or_assoc, BitVec.or_comm e]

section
variable {a e : Byte} {s : State}

theorem withR_orFlags (m1 : Byte) {body body' : Reg → State → Result}
    (hb : ∀ r, body' r (s.advanceIp.orFlags a e) = mapNext (State.orFlags a e) (body r s.advanceIp)) :
    withR m1 (s.orFlags a e) body' = mapNext (State.orFlags a e) (withR m1 s body) :=
  withR_mapNext (s.advanceIp_orFlags a e) (s.advanceIp.raise_orFlags a e .badreg) m1 hb

theorem withRR_orFlags (m1 m2 : Byte) {body : Reg → Reg → State → Result}
    (hb : ∀ r1 r2, body r1 r2 (s.advanceIp.orFlags a e) = mapNext (State.orFlags a e) (body r1 r2 s.advanceIp)) :
    withRR m1 m2 (s.orFlags a e) body = mapNext (State.orFlags a e) (withRR m1 m2 s body) :=
  withRR_mapNext (s.advanceIp_orFlags a e) (s.advanceIp.raise_orFlags a e .badreg) m1 m2 hb

theorem unknownInstruction_orFlags :
    (s.orFlags a e).unknownInstruction = s.unknownInstruction.orFlags a e :=
  s.advanceIp.raise_orFlags a e .unkinsn

theorem binaryOp_orFlags (m1 m2 : Byte) (f : Word → Word → Word) :
    binaryOp m1 m2 f (s.orFlags a e) = mapNext (State.orFlags a e) (binaryOp m1 m2 f s) :=
  withRR_orFlags m1 m2 fun _ _ => rfl

theorem execDiv_orFlags (m1 m2 : Byte) :
    execDiv m1 m2 (s.orFlags a e) = mapNext (State.orFlags a e) (execDiv m1 m2 s) :=
  withRR_orFlags m1 m2 fun r1 r2 => by
    rw [State.orFlags_readReg]
    split <;> rfl

theorem execSto_orFlags (m1 : Byte) (imm : Imm) :
    execSto m1 imm (s.orFlags a e) = mapNext (State.orFlags a e) (execSto m1 imm s) := by
  unfold execSto
  rw [State.orFlags_cfg]
  split
  · refine withR_orFlags m1 fun r => ?_
    cases checkAddr (stoAddr imm) with
    | some f => exact congrArg Host.Outcome.next (s.advanceIp.raise_orFlags a e f)
    | none => rfl
  · exact congrArg Host.Outcome.next unknownInstruction_orFlags

theorem execIor_orFlags (m1 : Byte) :
    execIor m1 (s.orFlags a e) = mapNext (State.orFlags a e) (execIor m1 s) :=
  withR_orFlags m1 fun r => by
    rw [State.orFlags_inRead]
    cases s.advanceIp.inRead <;> rfl

theorem conditionalJump_orFlags (m1 : Byte) (t : JumpTest) (ha : a = 0#8) :
    conditionalJump m1 t (s.orFlags a e) = mapNext (State.orFlags a e) (conditionalJump m1 t s) :=
  withR_orFlags m1 fun r => by
    rw [State.orFlags_af, ha, BitVec.or_zero, State.orFlags_cfg]
    split <;> rfl

/-- Bits set in `AF` and `EF` before an instruction are found set after it, and change nothing else of what it does,
unless it is a conditional jump and bits of `AF` are set. -/
theorem exec_orFlags (i : Instr) (hi : i.opcode ∈ [.jeq, .jlt, .jle, .jgt, .jge] → a = 0#8) :
    exec i (s.orFlags a e) = mapNext (State.orFlags a e) (exec i s) := by
  cases i with
  | hlt | nop => rfl
  | jne | loa | sip => exact congrArg Host.Outcome.next unknownInstruction_orFlags
  | jeq m1 | jlt m1 | jle m1 | jgt m1 | jge m1 => exact conditionalJump_orFlags m1 _ (hi (by simp [Instr.opcode]))
  | add m1 m2 | sub m1 m2 | mul m1 m2 | and m1 m2 | or m1 m2 | xor m1 m2 => exact binaryOp_orFlags m1 m2 _
  | cmp m1 m2 =>
    simp only [exec, execCmp]
    exact withRR_orFlags m1 m2 fun _ _ => congrArg Host.Outcome.next (s.advanceIp.orAf_orFlags a e _)
  | div m1 m2 => exact execDiv_orFlags m1 m2
  | not m1 => simp only [exec, execNot]; exact withR_orFlags m1 fun _ => rfl
  | jmp m1 => simp only [exec, execJmp]; exact withR_orFlags m1 fun _ => rfl
  | mov m1 => simp only [exec, execMov]; exact withR_orFlags m1 fun _ => rfl
  | iow m1 => simp only [exec, execIow]; exact withR_orFlags m1 fun _ => rfl
  | sto m1 _ imm => exact execSto_orFlags m1 imm
  | ior m1 => exact execIor_orFlags m1

end

/-- What an instruction does under another `AF`: both are what it does with `AF` clear, with the bits set after. -/
theorem exec_with_af (i : Instr) {s t : State} (m : Byte) (hi : i.opcode ∉ [.jeq, .jlt, .jle, .jgt, .jge])
    (h : exec i s = .next t) : ∃ u, exec i { s with af := m } = .next u ∧ { u with af := t.af } = t := by
  obtain ⟨c, hc, -⟩ := exec_effect i { s with af := 0#8 }
  have hor (a : Byte) : exec i { s with af := a } = .next (c.orFlags a 0#8) := by
    have := exec_orFlags (s := { s with af := 0#8 }) (a := a) (e := 0#8) i fun hmem => absurd hmem hi
    simpa [hc, State.orFlags, State.orAf, State.orEf] using this
  have ht : c.orFlags s.af 0#8 = t := Host.Outcome.next.inj ((hor s.af).symm.trans h)
  exact ⟨_, hor m, ht ▸ rfl⟩

/-- What an instruction does under another `EF`. -/
theorem exec_with_ef (i : Instr) {s t : State} (m : Byte) (h : exec i s = .next t) :
    ∃ u, exec i { s with ef := m } = .next u ∧ { u with ef := t.ef } = t := by
  obtain ⟨c, hc, -⟩ := exec_effect i { s with ef := 0#8 }
  have hor (e : Byte) : exec i { s with ef := e } = .next (c.orFlags 0#8 e) := by
    have := exec_orFlags (s := { s with ef := 0#8 }) (a := 0#8) (e := e) i fun _ => rfl
    simpa [hc, State.orFlags, State.orAf, State.orEf] using this
  have ht : c.orFlags 0#8 s.ef = t := Host.Outcome.next.inj ((hor s.ef).symm.trans h)
  exact ⟨_, hor m, ht ▸ rfl⟩

end Sys2Proof.Machine
end

section
/-! PROOFS. The flags and stops of a run: what every step keeps, a run keeps (10_state.md R28 to R33). -/

namespace Sys2Proof.Machine

/-! ### Runs -/

theorem runsTo_succ {k : Nat} {s t : State} : RunsTo (k + 1) s t ↔ ∃ u, step s = .next u ∧ RunsTo k u t := by
  unfold RunsTo
  simp only [Host.Core.run, core]
  cases step s <;> simp

/-- What every step keeps holds at the end of a run from where it holds. -/
theorem RunsTo.keeps {P : State → Prop} (hstep : ∀ s t, step s = .next t → P s → P t) {k : Nat} {s t : State}
    (hrun : RunsTo k s t) (hs : P s) : P t := by
  induction k generalizing s with
  | zero => exact Host.Outcome.next.inj hrun ▸ hs
  | succ k ih =>
    obtain ⟨u, hu, hrun⟩ := runsTo_succ.mp hrun
    exact ih hrun (hstep s u hu hs)

theorem step_af_getLsbD (n : Nat) (s t : State) (h : step s = .next t) (hs : s.af.getLsbD n = true) :
    t.af.getLsbD n = true := by
  obtain haf | ⟨_, _, _, _, _, -, haf⟩ := step_af h <;> simp [haf, hs]

theorem step_ef_getLsbD (n : Nat) (s t : State) (h : step s = .next t) (hs : s.ef.getLsbD n = true) :
    t.ef.getLsbD n = true := by
  obtain hef | ⟨f, hef⟩ := step_ef h <;> simp [hef, hs]

/-- Settles O40: only a `cmp` writes `AF` (`step_af`), and what another instruction does is independent of it
(`exec_with_af`). -/
theorem afIsWrittenOnlyByCmp : Obligations.AfIsWrittenOnlyByCmp := by
  refine ⟨fun s t h hne => ?_, fun k s t n hrun hs => hrun.keeps (step_af_getLsbD n) hs, fun _ => rfl,
    fun i s t m hi h => ?_⟩
  · obtain haf | ⟨m1, m2, imm, a, b, htick, haf⟩ := step_af h
    · exact absurd haf hne
    · exact ⟨⟨m1, m2, imm, htick⟩, by obtain hm | hm | hm := compareMask_cases s.cfg a b <;> simp [haf, hm]⟩
  · obtain ⟨u, hu, hut⟩ := exec_with_af i m hi h
    refine ⟨u, hu, hut, fun hcmp => ?_⟩
    obtain ⟨u', hu', heff⟩ := exec_effect i { s with af := m }
    obtain rfl : u = u' := Host.Outcome.next.inj (hu.symm.trans hu')
    exact heff.af.resolve_right fun ⟨hop, _⟩ => hcmp hop

/-- Settles O41: a step only ORs a class's bit into `EF` (`step_ef`), what an instruction does is independent of it
(`exec_with_ef`), and with `EF` set the core is not RUNNING. -/
theorem efOnlyAccumulatesFaults : Obligations.EfOnlyAccumulatesFaults := by
  refine ⟨fun s t h => step_ef h, fun k s t n hrun hs => hrun.keeps (step_ef_getLsbD n) hs, fun _ => rfl,
    fun i s t m h => exec_with_ef i m h, fun s hef => ?_⟩
  have hstop : s.status ≠ .running := fun hr =>
    have ⟨_, hef0, _⟩ := (status_running s).mp hr
    hef hef0
  exact ⟨hstop, fun t h => eq_of_step_of_not_running hstop h⟩

/-- Settles O42: of the changes to the stops only that of `hlt` writes `HALT`, and with `HALT` set the core is not
RUNNING. -/
theorem haltIsSetOnlyByHlt : Obligations.HaltIsSetOnlyByHlt := by
  refine ⟨fun _ _ _ _ => ⟨_, rfl, rfl⟩, fun s t h hne => ?_, fun s t h hh => ?_, fun _ => rfl⟩
  · cases step_stopChange h with
    | same _ hhalt | fault _ _ hhalt | undefined _ _ _ _ _ _ hhalt => exact absurd hhalt hne
    | halt m1 m2 imm hi => exact ⟨m1, m2, imm, hi⟩
  · refine eq_of_step_of_not_running (fun hr => ?_) h
    obtain ⟨-, -, hh0⟩ := (status_running s).mp hr
    simp [hh0] at hh

/-- Settles O43: of the changes to the stops only that of a `div` by zero writes `UNDEF`. -/
theorem onlyDivByZeroIsUndefined : Obligations.OnlyDivByZeroIsUndefined := by
  intro s t h hne
  cases step_stopChange h with
  | same _ _ hundef | fault _ _ _ hundef | halt _ _ _ _ _ _ hundef => exact absurd hundef hne
  | undefined m1 r2 imm hi hz _ _ hundef => exact ⟨hundef, m1, r2, imm, hi, hz⟩

end Sys2Proof.Machine
end

section
/-! PROOFS. `IP` after a tick (10_state.md R25), the values after reset (R39) and the status with the ports that show it
(R33, 00_scope.md R11). -/

namespace Sys2Proof.Machine

/-! ### `IP` -/

theorem mem_jumps_of_jumps (op : Opcode) (h : Opcode.jumps op = true) :
    op ∈ [.jmp, .jeq, .jlt, .jle, .jgt, .jge] := by
  cases op <;> simp [Opcode.jumps] at h ⊢

theorem Effect.ip {s t : State} {i : Instr} (h : Effect s i t) :
    t.ip = s.ip + 8#64 ∨
    (Opcode.jumps i.opcode = true ∧ ∃ r, resolve i.reg1 = some r ∧ t.ip = s.readReg r) ∨
    (i.opcode = .ior ∧ (∃ r, resolve i.reg1 = some r) ∧ s.input = [] ∧ s.inputEnded = false ∧ t = s) := by
  cases h with
  | jump hj r1 h1 => exact .inr (.inl ⟨hj, r1, h1, rfl⟩)
  | hold hop r1 h1 hin he => exact .inr (.inr ⟨hop, ⟨r1, h1⟩, hin, he, rfl⟩)
  | _ => exact .inl rfl

/-- The address after an instruction in memory does not wrap and is at most the size of memory. -/
theorem toNat_add_eight {ip ip' : Word} (hip : ip.toNat ≤ 0xFFFFF8) (h : ip' = ip + 8#64) :
    ip'.toNat = ip.toNat + 8 ∧ ip'.toNat ≤ memSize := by
  subst h
  have hnat : (ip + 8#64).toNat = ip.toNat + 8 := by
    rw [BitVec.toNat_add, BitVec.toNat_ofNat]; omega
  exact ⟨hnat, by rw [hnat]; unfold memSize; omega⟩

/-- An `ior` ticks, its register field is good, and there is no item: the core holds (10_state.md R36). -/
theorem holding_of_ior {s : State} {i : Instr} {r : Reg} (hi : s.ticking = some i) (hop : i.opcode = .ior)
    (hr : resolve i.reg1 = some r) (hin : s.input = []) (he : s.inputEnded = false) : s.holding = true := by
  have hi' : s.ticking = some (.ior i.reg1 i.reg2 i.imm) := hi.trans (congrArg some (Instr.eq_build_of_opcode hop))
  simp [State.holding, State.iorTarget, State.inValid, hi', hr, hin, he]

/-- Settles O48: the fetch passes the check, so the tick raises UNKINSN with `IP` advanced or has an instruction's
effect. -/
theorem ipAfterATick : Obligations.IpAfterATick := by
  intro s t hrun hle hmod h
  have hcheck : checkAddr s.ip = none := (checkAddr_none_iff _).mpr ⟨hle, hmod⟩
  cases step_effect s t h with
  | stopped hs => simp [hrun] at hs
  | fetchFault _ f hf => simp [hcheck] at hf
  | noSuchOpcode => exact .inl (toNat_add_eight hle rfl)
  | executed _ _ i hcur _ he =>
    obtain hip | ⟨hj, r, hr, hip⟩ | ⟨hop, ⟨r, hr⟩, hin, hend, heq⟩ := he.ip
    · exact .inl (toNat_add_eight hle hip)
    · exact .inr (.inl ⟨i, r, hcur, mem_jumps_of_jumps _ hj, mask_of_resolve _ _ hr, hip⟩)
    · exact .inr (.inr ⟨holding_of_ior (ticking_of_current hrun hcur) hop hr hin hend, heq⟩)

/-! ### Reset -/

/-- Settles O36. -/
theorem resetValues : Obligations.ResetValues :=
  ⟨RegFile.read_zero, rfl, rfl, rfl, rfl, rfl, fun _ => rfl, rfl⟩

/-! ### The status and the dump -/

theorem status_faulted_of {s : State} (hu : s.undef = none) (hef : s.ef ≠ 0#8) : s.status = .faulted := by
  simp [State.status, hu, hef]

theorem status_halted_of {s : State} (hu : s.undef = none) (hef : s.ef = 0#8) (hh : s.halt = true) :
    s.status = .halted := by
  simp [State.status, hu, hef, hh]

theorem dump_of_running {s : State} (h : s.status = .running) : s.dump = none := by
  simp [State.dump, h]

theorem dump_of_not_running {s : State} (h : s.status ≠ .running) :
    s.dump = some { regs := s.regs, af := s.af, ef := s.ef, ip := s.ip } := by
  unfold State.dump
  cases hs : s.status with
  | running => exact absurd hs h
  | halted | faulted | undefined => rfl

/-- Settles O51: one lemma for each status, and two for the dump. -/
theorem statusAndDumpPorts : Obligations.StatusAndDumpPorts :=
  ⟨fun s => (status_undefined s).mpr, fun _ => status_faulted_of, fun _ => status_halted_of,
    fun s hu hef hh => (status_running s).mpr ⟨hu, hef, hh⟩, rfl, rfl, rfl, rfl, fun _ => dump_of_running,
    fun _ h => ⟨_, dump_of_not_running h, fun _ => rfl, rfl, rfl, rfl⟩⟩

end Sys2Proof.Machine
end

section
/-! PROOFS. Memory and the streams (20_memory.md R48 to R56): what a step does to them, said once as consequences of
`step_effect`; and what a fetch reads after a word is stored. -/

namespace Sys2Proof.Machine

/-! ### The instruction of a tick -/

theorem ticking_eq_some {s : State} {i : Instr} : s.ticking = some i ↔ s.status = .running ∧ s.current = some i := by
  unfold State.ticking
  cases s.status <;> simp

theorem step_of_ticking {s : State} {i : Instr} (hi : s.ticking = some i) : step s = exec i s := by
  obtain ⟨hr, hcur⟩ := ticking_eq_some.mp hi
  exact step_of_current s i hr hcur

/-- The ticking instruction, spelt with the mask of the register its `reg1` names. -/
theorem ticking_eq_build_mask {s : State} {i : Instr} {op : Opcode} {r : Reg} (hi : s.ticking = some i)
    (hop : i.opcode = op) (hr : resolve i.reg1 = some r) :
    s.ticking = some (Instr.build op r.mask i.reg2 i.imm) := by
  rw [hi, ← mask_of_resolve _ _ hr, ← Instr.eq_build_of_opcode hop]

/-- A step executes the ticking instruction, or leaves memory and the streams as they are. -/
theorem step_effect_or_same {s t : State} (h : step s = .next t) :
    (∃ i, s.ticking = some i ∧ Effect s i t) ∨ (t.mem = s.mem ∧ SameStreams s t) := by
  cases step_effect s t h with
  | stopped | fetchFault | noSuchOpcode => exact .inr ⟨rfl, rfl, rfl, rfl⟩
  | executed hr _ i hcur _ he => exact .inl ⟨i, ticking_of_current hr hcur, he⟩

/-! ### A word stored in memory -/

/-- The meaning of a `sto` whose address passes the check (43_move_store_io.md R164). -/
theorem exec_sto_of_checkAddr {s : State} {imm : Imm} (hs : s.cfg.stoImplemented = true)
    (hc : checkAddr (stoAddr imm) = none) (r : Reg) (m2 : Byte) :
    exec (.sto r.mask m2 imm) s =
      .next (s.advanceIp.setMem (Memory.writeWord s.cfg.byteOrder s.mem (stoAddr imm).toNat (s.readReg r))) := by
  simp [exec, execSto, hs, hc]

theorem stoAddr_toNat (imm : Imm) : (stoAddr imm).toNat = imm.toNat :=
  BitVec.toNat_setWidth_of_le (by decide)

/-- Two different addresses that pass the check are at least a word apart. -/
theorem apart_of_checkAddr {a c : Word} (ha : checkAddr a = none) (hc : checkAddr c = none) (hne : c ≠ a) :
    c.toNat + 8 ≤ a.toNat ∨ a.toNat + 8 ≤ c.toNat := by
  obtain ⟨-, ha⟩ := (checkAddr_none_iff a).mp ha
  obtain ⟨-, hc⟩ := (checkAddr_none_iff c).mp hc
  have : c.toNat ≠ a.toNat := fun h => hne (BitVec.eq_of_toNat_eq h)
  omega

section
variable {s : State} {a : Word} (v : Word) (ha : checkAddr a = none)
include ha

theorem fetch_writeWord_same (hm : Memory.wf s.mem = true) :
    ((s.setMem (Memory.writeWord s.cfg.byteOrder s.mem a.toNat v)).setIp a).fetch = .word v :=
  calc ((s.setMem (Memory.writeWord s.cfg.byteOrder s.mem a.toNat v)).setIp a).fetch
    _ = .word (Memory.readWord s.cfg.byteOrder (Memory.writeWord s.cfg.byteOrder s.mem a.toNat v) a.toNat) :=
      fetch_of_checkAddr _ ha
    _ = .word v := by rw [Memory.readWord_writeWord _ _ _ _ hm (lt_memSize_of_checkAddr a ha)]

theorem fetch_writeWord_of_ne {c : Word} (hne : c ≠ a) :
    ((s.setMem (Memory.writeWord s.cfg.byteOrder s.mem a.toNat v)).setIp c).fetch = (s.setIp c).fetch := by
  unfold State.fetch
  simp only [State.setIp_ip, State.setIp_cfg, State.setIp_mem, State.setMem_cfg, State.setMem_mem]
  cases hc : checkAddr c with
  | some f => rfl
  | none => simp only [Memory.readWord_writeWord_of_apart _ _ _ _ v (apart_of_checkAddr ha hc hne)]

end

/-- Settles O29: the `sto` stores the register's word at its address, and a fetch from there reads it back while words
at other fetchable addresses lie apart. -/
theorem stoIsSeenByTheNextFetch : Obligations.StoIsSeenByTheNextFetch := by
  intro r m2 imm s t ⟨_, hmem, _⟩ hs hle hmod h
  have hc : checkAddr (stoAddr imm) = none := (checkAddr_none_iff _).mpr (stoAddr_toNat imm ▸ ⟨hle, hmod⟩)
  obtain rfl := Host.Outcome.next.inj ((exec_sto_of_checkAddr hs hc r m2).symm.trans h)
  exact ⟨fetch_writeWord_same (s := s.advanceIp) _ hc hmem,
    fun a hne => fetch_writeWord_of_ne (s := s.advanceIp) _ hc hne⟩

/-! ### What changes memory -/

/-- Storing the same word at the same place again changes nothing (20_memory.md R48). -/
theorem Memory.writeWord_writeWord (o : ByteOrder) (m : Memory) (a : Nat) (v : Word) (hm : Memory.wf m = true)
    (ha : a + 8 ≤ memSize) : Memory.writeWord o (Memory.writeWord o m a v) a v = Memory.writeWord o m a v := by
  have hw := Memory.wf_writeWord o m a v hm ha
  refine Memory.ext_read _ _ (Memory.wf_writeWord o _ a v hw ha) hw fun c => ?_
  by_cases hin : a ≤ c ∧ c < a + 8
  · obtain ⟨k, rfl⟩ := Nat.exists_eq_add_of_le hin.1
    have hk : k < 8 := by omega
    rw [Memory.read_writeWord_inside o _ a k v hw ha hk, Memory.read_writeWord_inside o m a k v hm ha hk]
  · exact Memory.read_writeWord_of_outside o _ a c v (by omega)

/-- The bytes of an image in memory, and 0 past them (70_reset_and_hazards.md R232). -/
theorem read_imageMemory (a k : Nat) (bs : List Byte) (h : a + bs.length ≤ memSize) :
    Memory.read (imageMemory a bs) (a + k) = bs.getD k 0#8 := by
  induction bs generalizing a k with
  | nil => rfl
  | cons b bs ih =>
    rw [List.length_cons] at h
    have hrest : a + 1 + bs.length ≤ memSize := by omega
    cases k with
    | zero =>
      by_cases hb : b = 0#8
      · have := Memory.read_eq_zero_of_lt_wfFrom _ _ a (imageMemory_wfFrom (a + 1) bs hrest) (by omega)
        simp [imageMemory, hb, this]
      · simp [imageMemory, hb, Memory.read]
    | succ k =>
      have := ih (a + 1) k hrest
      rw [show a + 1 + k = a + (k + 1) by omega] at this
      by_cases hb : b = 0#8
      · simp [imageMemory, hb, this]
      · simp [imageMemory, hb, Memory.read, this]

theorem loadImage_eq_some {s t : State} {image : List Byte} :
    s.loadImage image = some t ↔ image.length ≤ memSize ∧ s.setMem (imageMemory 0 image) = t := by
  simp [State.loadImage]

/-- An instruction leaves memory as it is, or it is a `sto` and stores a word at its address. -/
theorem Effect.mem_eq {s t : State} {i : Instr} (h : Effect s i t) :
    t.mem = s.mem ∨ i.opcode = .sto ∧ ∃ r, resolve i.reg1 = some r ∧
      t.mem = Memory.writeWord s.cfg.byteOrder s.mem (stoAddr i.imm).toNat (s.readReg r) := by
  cases h with
  | store hop _ r hr => exact .inr ⟨hop, r, hr, rfl⟩
  | _ => exact .inl rfl

/-- A step leaves memory as it is, or ticks a `sto` and stores a word at its address (20_memory.md R48). -/
theorem step_mem {s t : State} (h : step s = .next t) :
    t.mem = s.mem ∨ ∃ (r : Reg) (m2 : Byte) (imm : Imm), s.ticking = some (.sto r.mask m2 imm) ∧
      t.mem = Memory.writeWord s.cfg.byteOrder s.mem (stoAddr imm).toNat (s.readReg r) := by
  obtain ⟨i, hi, he⟩ | ⟨hmem, -⟩ := step_effect_or_same h
  · exact he.mem_eq.imp_right fun ⟨hop, r, hr, hmem⟩ => ⟨r, _, _, ticking_eq_build_mask hi hop hr, hmem⟩
  · exact .inl hmem

/-- Settles O44: a byte a step changes lies in the word its `sto` stores (`step_mem`); storing again and the image load
are `Memory.writeWord_writeWord` and `read_imageMemory`. -/
theorem memoryChangesOnlyBySto : Obligations.MemoryChangesOnlyBySto := by
  refine ⟨fun s t a h hne => ?_, Memory.writeWord_writeWord, fun s t image h a => ?_⟩
  · obtain hmem | ⟨r, m2, imm, hi, hmem⟩ := step_mem h
    · exact absurd (congrArg (Memory.read · a) hmem) hne
    · refine ⟨r, m2, imm, hi, ?_⟩
      by_contra hout
      exact hne (hmem ▸ Memory.read_writeWord_of_outside _ _ _ a _ (by omega))
  · obtain ⟨hlen, rfl⟩ := loadImage_eq_some.mp h
    simpa using read_imageMemory 0 a image (by simpa using hlen)

/-! ### What moves the streams -/

/-- An instruction leaves the output as it is, or it is an `iow` and appends a byte. -/
theorem Effect.output_eq {s t : State} {i : Instr} (h : Effect s i t) :
    t.output = s.output ∨ i.opcode = .iow ∧ ∃ r b, resolve i.reg1 = some r ∧ t.output = s.output ++ [b] := by
  cases h with
  | output hop r hr => exact .inr ⟨hop, r, _, hr, rfl⟩
  | _ => exact .inl rfl

/-- An instruction leaves the input as it is, or it is an `ior` and takes the first byte. -/
theorem Effect.input_eq {s t : State} {i : Instr} (h : Effect s i t) :
    t.input = s.input ∨ i.opcode = .ior ∧ ∃ r b, resolve i.reg1 = some r ∧ s.input = b :: t.input := by
  cases h with
  | takeByte hop r hr b rest hin => exact .inr ⟨hop, r, b, hr, hin⟩
  | _ => exact .inl rfl

theorem Effect.inputEnded_eq {s t : State} {i : Instr} (h : Effect s i t) : t.inputEnded = s.inputEnded := by
  cases h <;> rfl

/-- A step never ends the input stream and never reopens it. -/
theorem step_inputEnded {s t : State} (h : step s = .next t) : t.inputEnded = s.inputEnded := by
  obtain ⟨_, _, he⟩ | ⟨-, -, hend, -⟩ := step_effect_or_same h
  · exact he.inputEnded_eq
  · exact hend

/-- Settles O46: of the effects only that of an `iow` moves the output, and only that of an `ior` the input. -/
theorem streamsMoveOneItemInOrder : Obligations.StreamsMoveOneItemInOrder := by
  intro s t h
  obtain ⟨i, hi, he⟩ | ⟨-, hin, -, hout⟩ := step_effect_or_same h
  · refine ⟨he.output_eq.imp_right ?_, he.input_eq.imp_right ?_, step_inputEnded h⟩
    · rintro ⟨hop, r, b, hr, hout⟩
      exact ⟨r, i.reg2, i.imm, b, ticking_eq_build_mask hi hop hr, hout⟩
    · rintro ⟨hop, r, b, hr, hin⟩
      exact ⟨r, i.reg2, i.imm, b, ticking_eq_build_mask hi hop hr, hin⟩
  · exact ⟨.inl hout, .inl hin, step_inputEnded h⟩

end Sys2Proof.Machine
end

section
/-! PROOFS. When an input byte arrives does not matter (20_memory.md R51, R52; 40_execution_cycle.md R115): a step
commutes with one more byte at the end of the input, unless it is an `ior` that waits for the byte. -/

namespace Sys2Proof.Machine

/-! ### One more byte of input -/

/-- The state with one more byte at the end of the input. -/
def State.appendInput (b : Byte) (s : State) : State := s.setInput (s.input ++ [b])

@[simp] theorem State.appendInput_cfg (b : Byte) (s : State) : (s.appendInput b).cfg = s.cfg := rfl
@[simp] theorem State.appendInput_af (b : Byte) (s : State) : (s.appendInput b).af = s.af := rfl
@[simp] theorem State.appendInput_readReg (b : Byte) (s : State) (r : Reg) :
    (s.appendInput b).readReg r = s.readReg r := rfl
@[simp] theorem State.appendInput_input (b : Byte) (s : State) : (s.appendInput b).input = s.input ++ [b] := rfl
@[simp] theorem State.appendInput_undef (b : Byte) (s : State) : (s.appendInput b).undef = s.undef := rfl
@[simp] theorem State.appendInput_status (b : Byte) (s : State) : (s.appendInput b).status = s.status := rfl
@[simp] theorem State.appendInput_fetch (b : Byte) (s : State) : (s.appendInput b).fetch = s.fetch := rfl

/-- Offering a byte while the stream is open appends it. -/
theorem offerByte_eq_appendInput {s : State} (he : s.inputEnded = false) (b : Byte) :
    s.offerByte b = s.appendInput b := by
  simp [State.offerByte, State.appendInput, he]

section
variable {s : State} {b : Byte}

theorem withR_appendInput (m1 : Byte) {body : Reg → State → Result}
    (hb : ∀ r, body r (s.advanceIp.appendInput b) = mapNext (State.appendInput b) (body r s.advanceIp)) :
    withR m1 (s.appendInput b) body = mapNext (State.appendInput b) (withR m1 s body) :=
  withR_mapNext (g := State.appendInput b) rfl rfl m1 hb

theorem withRR_appendInput (m1 m2 : Byte) {body : Reg → Reg → State → Result}
    (hb : ∀ r1 r2, body r1 r2 (s.advanceIp.appendInput b) = mapNext (State.appendInput b) (body r1 r2 s.advanceIp)) :
    withRR m1 m2 (s.appendInput b) body = mapNext (State.appendInput b) (withRR m1 m2 s body) :=
  withRR_mapNext (g := State.appendInput b) rfl rfl m1 m2 hb

/-- An `ior` that finds a byte takes the same one with another byte behind it. -/
theorem execIor_appendInput {m1 : Byte} (hin : ∀ r, resolve m1 = some r → s.input ≠ []) :
    execIor m1 (s.appendInput b) = mapNext (State.appendInput b) (execIor m1 s) := by
  unfold execIor
  cases hr : resolve m1 with
  | none => simp only [withR_bad _ _ _ hr]; rfl
  | some r =>
    obtain ⟨x, rest, hs⟩ := List.exists_cons_of_ne_nil (hin r hr)
    simp only [withR, hr, State.inRead, State.advanceIp_input, State.appendInput_input, hs, List.cons_append]
    rfl

theorem binaryOp_appendInput (m1 m2 : Byte) (f : Word → Word → Word) :
    binaryOp m1 m2 f (s.appendInput b) = mapNext (State.appendInput b) (binaryOp m1 m2 f s) :=
  withRR_appendInput m1 m2 fun _ _ => rfl

theorem conditionalJump_appendInput (m1 : Byte) (t : JumpTest) :
    conditionalJump m1 t (s.appendInput b) = mapNext (State.appendInput b) (conditionalJump m1 t s) :=
  withR_appendInput m1 fun r => by
    rw [State.appendInput_cfg, State.appendInput_af]
    split <;> rfl

theorem execDiv_appendInput (m1 m2 : Byte) :
    execDiv m1 m2 (s.appendInput b) = mapNext (State.appendInput b) (execDiv m1 m2 s) :=
  withRR_appendInput m1 m2 fun r1 r2 => by
    rw [State.appendInput_readReg]
    split <;> rfl

theorem execSto_appendInput (m1 : Byte) (imm : Imm) :
    execSto m1 imm (s.appendInput b) = mapNext (State.appendInput b) (execSto m1 imm s) := by
  unfold execSto
  rw [State.appendInput_cfg]
  split
  · refine withR_appendInput m1 fun r => ?_
    cases checkAddr (stoAddr imm) <;> rfl
  · rfl

/-- An instruction does not see the end of the input, unless it is an `ior` that finds no byte. -/
theorem exec_appendInput (i : Instr) (hin : i.opcode = .ior → ∀ r, resolve i.reg1 = some r → s.input ≠ []) :
    exec i (s.appendInput b) = mapNext (State.appendInput b) (exec i s) := by
  cases i with
  | hlt | nop | jne | loa | sip => rfl
  | add m1 m2 | sub m1 m2 | mul m1 m2 | and m1 m2 | or m1 m2 | xor m1 m2 => exact binaryOp_appendInput m1 m2 _
  | jeq m1 | jlt m1 | jle m1 | jgt m1 | jge m1 => exact conditionalJump_appendInput m1 _
  | cmp m1 m2 => simp only [exec, execCmp]; exact withRR_appendInput m1 m2 fun _ _ => rfl
  | not m1 => simp only [exec, execNot]; exact withR_appendInput m1 fun _ => rfl
  | jmp m1 => simp only [exec, execJmp]; exact withR_appendInput m1 fun _ => rfl
  | mov m1 => simp only [exec, execMov]; exact withR_appendInput m1 fun _ => rfl
  | iow m1 => simp only [exec, execIow]; exact withR_appendInput m1 fun _ => rfl
  | div m1 m2 => exact execDiv_appendInput m1 m2
  | sto m1 _ imm => exact execSto_appendInput m1 imm
  | ior m1 => exact execIor_appendInput (hin rfl)

/-- A tick sees the end of the input only through the instruction it executes. -/
theorem tick_appendInput
    (hexec : ∀ i, s.current = some i → exec i (s.appendInput b) = mapNext (State.appendInput b) (exec i s)) :
    tick (s.appendInput b) = mapNext (State.appendInput b) (tick s) := by
  unfold tick
  rw [State.appendInput_fetch, State.appendInput_cfg]
  cases hf : s.fetch with
  | fault f => rfl
  | word w =>
    cases hd : decode s.cfg w with
    | error e => simp only [hd]; rfl
    | ok i => simpa only [hd] using hexec i (by simp [State.current, hf, hd])

/-- A step commutes with one more byte at the end of an open input, unless the core holds for it. -/
theorem step_appendInput (hh : s.holding = false) (he : s.inputEnded = false) :
    step (s.appendInput b) = mapNext (State.appendInput b) (step s) := by
  unfold step cycle
  rw [State.appendInput_undef, State.appendInput_status]
  cases s.undef with
  | some r => rfl
  | none =>
    cases hs : s.status with
    | halted | faulted | undefined => rfl
    | running =>
      refine tick_appendInput fun i hcur => exec_appendInput i fun hop r hr hin => ?_
      simp [holding_of_ior (ticking_of_current hs hcur) hop hr hin he] at hh

end

/-! ### The core holds -/

/-- The core holds when its tick is an `ior` with a good register field and there is no item (10_state.md R36). -/
theorem holding_iff {s : State} : s.holding = true ↔
    (∃ (r : Reg) (m2 : Byte) (imm : Imm), s.ticking = some (.ior r.mask m2 imm)) ∧
      s.input = [] ∧ s.inputEnded = false := by
  constructor
  · intro h
    unfold State.holding State.iorTarget State.inValid at h
    split at h
    next m1 m2 imm hi =>
      obtain ⟨hr, hin, he⟩ : (resolve m1).isSome = true ∧ s.input = [] ∧ s.inputEnded = false := by simpa using h
      obtain ⟨r, hr⟩ := Option.isSome_iff_exists.mp hr
      exact ⟨⟨r, m2, imm, mask_of_resolve _ _ hr ▸ hi⟩, hin, he⟩
    next => simp at h
  · rintro ⟨⟨r, m2, imm, hi⟩, hin, he⟩
    exact holding_of_ior hi rfl (resolve_mask r) hin he

/-- An `ior` with no item leaves everything as it was (40_execution_cycle.md R115). -/
theorem exec_ior_of_no_item {s : State} (hin : s.input = []) (he : s.inputEnded = false) (r : Reg) (m2 : Byte)
    (imm : Imm) : exec (.ior r.mask m2 imm) s = .next s := by
  simp [exec, execIor, State.inRead, hin, he]

/-- Settles O47: a step that does not hold commutes with one more byte of input (`step_appendInput`), a holding one
changes nothing, and with a byte offered the input is not empty. -/
theorem inputArrivalTimeDoesNotMatter : Obligations.InputArrivalTimeDoesNotMatter := by
  refine ⟨fun s t b hh he h => ?_, fun s b hh => ?_⟩
  · have ht : t.inputEnded = false := (step_inputEnded h).trans he
    rw [offerByte_eq_appendInput he, offerByte_eq_appendInput ht, step_appendInput hh he, h, mapNext_next]
  · obtain ⟨⟨r, m2, imm, hi⟩, hin, he⟩ := holding_iff.mp hh
    refine ⟨(step_of_ticking hi).trans (exec_ior_of_no_item hin he r m2 imm), Bool.eq_false_iff.mpr fun hh' => ?_⟩
    obtain ⟨-, hin', -⟩ := holding_iff.mp hh'
    simp [offerByte_eq_appendInput he] at hin'

end Sys2Proof.Machine
end

section
/-! PROOFS. The codec (30_encoding.md R60 to R73): decoding bytes and decoding words are one thing said of bytes and of
words, a word is packed fields, and the opcode field alone selects the operation. -/

namespace Sys2Proof

open Machine

/-! ### An instruction by its operation and fields -/

@[simp] theorem Instr.opcode_build (op : Opcode) (m1 m2 : Byte) (imm : Imm) :
    (Instr.build op m1 m2 imm).opcode = op := by cases op <;> rfl

@[simp] theorem Instr.reg1_build (op : Opcode) (m1 m2 : Byte) (imm : Imm) :
    (Instr.build op m1 m2 imm).reg1 = m1 := by cases op <;> rfl

@[simp] theorem Instr.reg2_build (op : Opcode) (m1 m2 : Byte) (imm : Imm) :
    (Instr.build op m1 m2 imm).reg2 = m2 := by cases op <;> rfl

@[simp] theorem Instr.imm_build (op : Opcode) (m1 m2 : Byte) (imm : Imm) :
    (Instr.build op m1 m2 imm).imm = imm := by cases op <;> rfl

/-! ### The opcode map -/

/-- Under an injective map, the value that stands for a name is the name's value and no other. -/
theorem Config.opcodeOf_eq_some (c : Config) (h : c.opcodes.injective = true) (v : Half) (op : Opcode) :
    c.opcodeOf v = some op ↔ v = c.opcodes.valueOf op :=
  ⟨fun hv => (c.valueOf_of_opcodeOf v op hv).symm, fun hv => hv ▸ c.opcodeOf_valueOf h op⟩

theorem OpcodeMap.card_values (m : OpcodeMap) (h : m.injective = true) :
    (Opcode.all.map m.valueOf).toFinset.card = 24 :=
  List.toFinset_card_of_nodup (of_decide_eq_true h)

/-! ### A word and its instruction -/

theorem decode_eq_ok {c : Config} {w : Word} {i : Instr} :
    decode c w = .ok i ↔ ∃ op, c.opcodeOf (splitFields w).opcode = some op ∧
      i = Instr.build op (splitFields w).reg1 (splitFields w).reg2 (splitFields w).imm := by
  unfold decode decodeFields
  cases c.opcodeOf (splitFields w).opcode <;> simp [eq_comm]

@[simp] theorem splitFields_encode (c : Config) (i : Instr) : splitFields (encode c i) = i.fields c :=
  splitFields_joinFields _

/-- Packing the fields of an instruction and splitting them again finds its operation (30_encoding.md R72). -/
theorem decode_encode (c : Config) (h : c.opcodes.injective = true) (i : Instr) : decode c (encode c i) = .ok i := by
  rw [decode_eq_ok, splitFields_encode]
  exact ⟨i.opcode, c.opcodeOf_valueOf h i.opcode, (Instr.build_eq i).symm⟩

/-- A word that decodes to an instruction is the instruction's word (30_encoding.md R72). -/
theorem encode_of_decode {c : Config} {w : Word} {i : Instr} (h : decode c w = .ok i) : encode c i = w := by
  obtain ⟨op, hop, rfl⟩ := decode_eq_ok.mp h
  calc encode c (Instr.build op (splitFields w).reg1 (splitFields w).reg2 (splitFields w).imm)
    _ = joinFields (splitFields w) :=
      congrArg joinFields (by simp [Instr.fields, c.valueOf_of_opcodeOf _ _ hop])
    _ = w := joinFields_splitFields w

/-! ### Bytes and their instruction -/

/-- Decoding the bytes of a word is decoding the word, in either byte order (20_memory.md R42). -/
theorem decodeBytes_wordBytes {c : Config} {w : Word} {i : Instr} (h : decode c w = .ok i) (rest : List Byte) :
    decodeBytes c (wordBytes c.byteOrder w ++ rest) = .ok (i, rest) := by
  cases ho : c.byteOrder with
  | little => simp [wordBytes, decodeBytes, ho, joinBytes_byteAt, h]
  | big => simp [wordBytes, decodeBytes, ho, joinBytes_big_byteAt, h]

theorem exists_word_of_decodeBytes {c : Config} {bytes rest : List Byte} {i : Instr}
    (h : decodeBytes c bytes = .ok (i, rest)) :
    ∃ w, decode c w = .ok i ∧ bytes = wordBytes c.byteOrder w ++ rest := by
  unfold decodeBytes at h
  split at h
  next b0 b1 b2 b3 b4 b5 b6 b7 tail =>
    refine ⟨joinBytes c.byteOrder b0 b1 b2 b3 b4 b5 b6 b7, ?_⟩
    rw [wordBytes_joinBytes]
    split at h <;> simp_all
  next => simp at h

/-- Settles O3: the bytes are those of the instruction's word, and that word decodes to it. -/
theorem decodeOfEncodeIsTheInstruction : Obligations.DecodeOfEncodeIsTheInstruction :=
  fun c i rest h => decodeBytes_wordBytes (decode_encode c (c.opcodes_injective_of_wf h) i) rest

/-- Settles O4: the bytes are those of a word that decodes to the instruction, and that word is the instruction's. -/
theorem encodeOfDecodeIsTheBytes : Obligations.EncodeOfDecodeIsTheBytes := by
  intro c bytes rest i h
  obtain ⟨w, hw, hbytes⟩ := exists_word_of_decodeBytes h
  rw [hbytes, encodeBytes, encode_of_decode hw]

/-! ### The layout of a word -/

/-- Settles O2: splitting reads each field at its bits, and splitting an instruction's word gives its fields. -/
theorem fieldsStandAtTheirBits : Obligations.FieldsStandAtTheirBits := by
  intro c i
  have hop : (encode c i).extractLsb' 16 16 = c.opcodes.valueOf i.opcode :=
    congrArg Fields.opcode (splitFields_encode c i)
  have hreg1 : (encode c i).extractLsb' 8 8 = i.reg1 := congrArg Fields.reg1 (splitFields_encode c i)
  have hreg2 : (encode c i).extractLsb' 0 8 = i.reg2 := congrArg Fields.reg2 (splitFields_encode c i)
  have himm : (encode c i).extractLsb' 32 32 = i.imm := congrArg Fields.imm (splitFields_encode c i)
  refine ⟨wordBytes_length _ _, fun k hk => ?_, fun k hk => ?_, fun k hk => ?_, fun k hk => ?_⟩
  · simp [← hop, hk]
  · simp [← hreg1, hk]
  · simp [← hreg2, hk]
  · simp [← himm, hk]

/-- The bytes that name no register are those that are no register's mask (30_encoding.md R66). -/
theorem resolve_eq_none_iff (m : Byte) :
    resolve m = none ↔ m ∉ [0x01#8, 0x02#8, 0x04#8, 0x08#8, 0x10#8, 0x20#8, 0x40#8, 0x80#8] := by
  unfold resolve
  split_ifs <;> simp_all

/-- Settles O1: by the laws of fields and masks. -/
theorem fieldsAndMasksRoundTrip : Obligations.FieldsAndMasksRoundTrip :=
  ⟨splitFields_joinFields, joinFields_splitFields, resolve_mask, fun m r h => (mask_of_resolve m r h).symm,
    resolve_eq_none_iff⟩

/-! ### The opcode selects the operation -/

theorem exec_of_reserved {i : Instr} (s : State) (h : i.form = .reserved) :
    exec i s = .next s.unknownInstruction := by
  cases i with
  | jne | loa | sip => rfl
  | _ => cases h

theorem raises_unknownInstruction (s : State) : Raises .unkinsn (s.ip + 8#64) s s.unknownInstruction :=
  ⟨rfl, rfl, fun _ => rfl, rfl, rfl, rfl, fun _ => rfl, ⟨rfl, rfl, rfl⟩, rfl⟩

theorem step_eq_tick {s : State} (hr : s.status = .running) : step s = tick s := by
  obtain ⟨hundef, -⟩ := (status_running s).mp hr
  simp [step, cycle, hundef, hr]

/-- A word whose opcode field is no implemented operation's value has no handler (40_execution_cycle.md R105). -/
theorem step_of_no_handler {s : State} {w : Word} (hr : s.status = .running) (hf : s.fetch = .word w)
    (hw : ∀ op : Opcode, op.implemented = true → w.extractLsb' 16 16 ≠ s.cfg.opcodes.valueOf op) :
    step s = .next s.unknownInstruction := by
  rw [step_eq_tick hr]
  cases hd : decode s.cfg w with
  | error e => simp [tick, hf, hd]
  | ok i =>
    obtain ⟨op, hop, rfl⟩ := decode_eq_ok.mp hd
    simp only [tick, hf, hd]
    refine exec_of_reserved s (by_contra fun hform => ?_)
    exact hw op (by simpa [Opcode.implemented, Instr.form] using hform) (s.cfg.valueOf_of_opcodeOf _ _ hop).symm

/-- Settles O6: decoding looks the opcode field up in an injective map; every value but the 24 of the map is outside the
enumeration; and a word of none of the implemented values has no handler. -/
theorem opcodeAloneSelectsTheOperation : Obligations.OpcodeAloneSelectsTheOperation := by
  refine ⟨fun c w op hc => ?_, rfl, fun c hc => ?_, fun s w _ hr hf hw => ?_⟩
  · calc (∃ i, decode c w = .ok i ∧ i.opcode = op)
      _ ↔ c.opcodeOf (splitFields w).opcode = some op := by
        simp only [decode_eq_ok]
        constructor
        · rintro ⟨_, ⟨op', hop, rfl⟩, hi⟩
          rwa [← hi, Instr.opcode_build]
        · exact fun hop => ⟨_, ⟨op, hop, rfl⟩, Instr.opcode_build ..⟩
      _ ↔ w.extractLsb' 16 16 = c.opcodes.valueOf op :=
        c.opcodeOf_eq_some (c.opcodes_injective_of_wf hc) _ op
  · have houtside : (Finset.univ.filter fun v : Half => v ∉ Opcode.all.map c.opcodes.valueOf) =
        (Opcode.all.map c.opcodes.valueOf).toFinsetᶜ := by ext v; simp
    have hcard : Fintype.card Half = 65536 :=
      (Fintype.card_congr BitVec.equivFin.toEquiv).trans (Fintype.card_fin (2 ^ 16))
    rw [houtside, Finset.card_compl, OpcodeMap.card_values _ (c.opcodes_injective_of_wf hc), hcard]
  · exact ⟨_, step_of_no_handler hr hf hw, raises_unknownInstruction s⟩

/-! ### Unread fields -/

/-- Settles O15: each meaning takes only the fields its form reads, and the canonical form keeps those. -/
theorem unreadFieldsAreIgnored : Obligations.UnreadFieldsAreIgnored := by
  intro i s
  cases i with
  | hlt | nop | jne | loa | sip => rfl
  | not | jmp | jeq | jlt | jle | jgt | jge | ior | iow => rfl
  | cmp | add | sub | mul | div | and | or | xor => rfl
  | mov | sto => rfl

end Sys2Proof
end

section
/-! PROOFS. The lines of an assembly (30_encoding.md R74, R75, R85, R86): what an assembly that succeeds and one that
fails say of its lines, and which lines a text of skipped lines has. -/

namespace Sys2Proof.Machine

/-! ### One line -/

theorem assembleLine_eq_none {line : List Char} : assembleLine line = .ok none ↔ skippedLine line = true := by
  unfold assembleLine
  cases skippedLine line with
  | true => simp
  | false => cases readInstr line <;> simp

theorem assembleLine_eq_some {line : List Char} {i : Instr} :
    assembleLine line = .ok (some i) ↔ skippedLine line = false ∧ readInstr line = .ok i := by
  unfold assembleLine
  cases skippedLine line with
  | true => simp
  | false => cases readInstr line <;> simp

/-! ### A successful assembly -/

theorem assembleLines_cons_eq_ok {n : Nat} {line : List Char} {lines : List (List Char)} {is : List Instr} :
    assembleLines n (line :: lines) = .ok is ↔
      ∃ o js, assembleLine line = .ok o ∧ assembleLines (n + 1) lines = .ok js ∧ is = o.toList ++ js := by
  cases h : assembleLine line with
  | error e => simp [assembleLines, h]
  | ok o =>
    cases o with
    | none => simp [assembleLines, h]
    | some i => cases hrest : assembleLines (n + 1) lines <;> simp [assembleLines, h, hrest, eq_comm]

/-- Lines assemble exactly when every line gives an instruction or nothing, and the instructions they give, in order,
are the outcome. -/
theorem assembleLines_eq_ok {n : Nat} {lines : List (List Char)} {is : List Instr} :
    assembleLines n lines = .ok is ↔
      ∃ os : List (Option Instr), os.map .ok = lines.map assembleLine ∧ is = os.flatMap Option.toList := by
  induction lines generalizing n is with
  | nil => simp [assembleLines, eq_comm]
  | cons line lines ih =>
    simp only [assembleLines_cons_eq_ok, ih, List.map_cons, List.map_eq_cons_iff]
    constructor
    · rintro ⟨o, _, ho, ⟨os, hos, rfl⟩, rfl⟩
      exact ⟨o :: os, ⟨o, os, rfl, ho.symm, hos⟩, List.flatMap_cons.symm⟩
    · rintro ⟨_, ⟨o, os, rfl, ho, hos⟩, rfl⟩
      exact ⟨o, _, ho.symm, ⟨os, hos, rfl⟩, List.flatMap_cons⟩

theorem assemble_eq_ok {c : Config} {text : List Char} {image : List Byte} :
    assemble c text = .ok image ↔
      ∃ is, assembleLines 1 (splitLines text) = .ok is ∧ is.flatMap (encodeBytes c) = image := by
  unfold assemble
  cases assembleLines 1 (splitLines text) <;> simp

/-! ### A failed assembly -/

theorem assemble_eq_error {c : Config} {text : List Char} {f : AsmFailure} :
    assemble c text = .error f ↔ assembleLines 1 (splitLines text) = .error f := by
  unfold assemble
  cases assembleLines 1 (splitLines text) <;> simp

/-- `f` names the first refused line of lines numbered from `n`, and its refusal. -/
def FirstRefused (n : Nat) (lines : List (List Char)) (f : AsmFailure) : Prop :=
  ∃ (before after : List (List Char)) (line : List Char), lines = before ++ line :: after ∧
    f.line = before.length + n ∧ assembleLine line = .error f.error ∧ ∀ l ∈ before, ∃ o, assembleLine l = .ok o

theorem not_firstRefused_nil (n : Nat) (f : AsmFailure) : ¬FirstRefused n [] f := by
  rintro ⟨before, after, line, h, -⟩
  simp at h

/-- A refused line is itself the first. -/
theorem firstRefused_cons_of_error {line : List Char} {e : AsmError} (h : assembleLine line = .error e) (n : Nat)
    (lines : List (List Char)) (f : AsmFailure) : FirstRefused n (line :: lines) f ↔ f = { line := n, error := e } := by
  constructor
  · rintro ⟨_ | ⟨l, before⟩, after, line', hlines, hn, he, hok⟩
    · obtain ⟨rfl, -⟩ := List.cons.inj hlines
      obtain rfl : e = f.error := Except.error.inj (h.symm.trans he)
      cases f
      simpa using hn
    · obtain ⟨rfl, -⟩ := List.cons.inj hlines
      obtain ⟨o, ho⟩ := hok line List.mem_cons_self
      simp [h] at ho
  · rintro rfl
    exact ⟨[], lines, line, rfl, (Nat.zero_add n).symm, h, nofun⟩

/-- A line that is not refused moves the first refused one on by one. -/
theorem firstRefused_cons_of_ok {line : List Char} {o : Option Instr} (h : assembleLine line = .ok o) (n : Nat)
    (lines : List (List Char)) (f : AsmFailure) : FirstRefused n (line :: lines) f ↔ FirstRefused (n + 1) lines f := by
  constructor
  · rintro ⟨_ | ⟨l, before⟩, after, line', hlines, hn, he, hok⟩
    · obtain ⟨rfl, -⟩ := List.cons.inj hlines
      simp [h] at he
    · obtain ⟨rfl, rfl⟩ := List.cons.inj hlines
      exact ⟨before, after, line', rfl, by simp [hn]; omega, he, fun l hl => hok l (List.mem_cons_of_mem _ hl)⟩
  · rintro ⟨before, after, line', rfl, hn, he, hok⟩
    exact ⟨line :: before, after, line', rfl, by simp [hn]; omega, he, List.forall_mem_cons.mpr ⟨⟨o, h⟩, hok⟩⟩

/-- Lines fail to assemble exactly with the first refused one (30_encoding.md R85). -/
theorem assembleLines_eq_error {n : Nat} {lines : List (List Char)} {f : AsmFailure} :
    assembleLines n lines = .error f ↔ FirstRefused n lines f := by
  induction lines generalizing n with
  | nil => simp [assembleLines, not_firstRefused_nil]
  | cons line lines ih =>
    cases h : assembleLine line with
    | error e => simp [assembleLines, firstRefused_cons_of_error h, h, eq_comm]
    | ok o =>
      rw [firstRefused_cons_of_ok h, ← ih]
      cases o with
      | none => simp [assembleLines, h]
      | some i => cases hrest : assembleLines (n + 1) lines <;> simp [assembleLines, h, hrest]

/-- Settles O58: assembly fails as its lines do, numbered from 1. -/
theorem firstRefusedLineEndsTheAssembly : Obligations.FirstRefusedLineEndsTheAssembly :=
  fun _ _ _ => assemble_eq_error.trans assembleLines_eq_error

/-! ### Skipped lines -/

/-- A line stays skipped when it is cut short: what makes it a blank or a comment line is at its front. -/
theorem skippedLine_of_append (l m : List Char) (h : skippedLine (l ++ m) = true) : skippedLine l = true := by
  induction l with
  | nil => rfl
  | cons c cs ih =>
    by_cases hc : isBlank c = true
    · rw [List.cons_append, skippedLine_cons_of_blank _ _ hc] at h
      rw [skippedLine_cons_of_blank _ _ hc, ih h]
    · rw [List.cons_append, skippedLine_cons_of_not_blank _ _ hc] at h
      rw [skippedLine_cons_of_not_blank _ _ hc, h]

/-- A skipped line ended either way is split off as a skipped line: its own last carriage return may go with the line
feed, and nothing else (30_encoding.md R74). -/
theorem splitLines_cons_skipped {line : List Char} (cr : Bool) (rest : List Char) (hn : '\n' ∉ line)
    (h : skippedLine line = true) :
    ∃ line', skippedLine line' = true ∧
      splitLines ((line ++ if cr then ['\r', '\n'] else ['\n']) ++ rest) = line' :: splitLines rest := by
  cases cr with
  | true =>
    refine ⟨line, h, ?_⟩
    simpa using splitLines_append (line ++ ['\r']) rest (by simp [hn])
  | false =>
    refine ⟨_, ?_, by simpa using splitLines_append line rest hn⟩
    split
    next hr => exact skippedLine_of_append _ ['\r'] (by rwa [List.dropLast_append_getLast? _ hr])
    next => exact h

/-- A text of skipped lines has only skipped lines. -/
theorem skippedLine_of_mem_splitLines {lines : List (List Char × Bool)} {last : List Char}
    (h : ∀ line ∈ last :: lines.map Prod.fst, '\n' ∉ line ∧ skippedLine line = true) :
    ∀ line ∈ splitLines ((lines.flatMap fun l => l.1 ++ if l.2 then ['\r', '\n'] else ['\n']) ++ last),
      skippedLine line = true := by
  induction lines with
  | nil =>
    obtain ⟨hn, hskip⟩ := h last List.mem_cons_self
    rw [List.flatMap_nil, List.nil_append, splitLines_of_no_newline last hn]
    split <;> simp [hskip]
  | cons l lines ih =>
    obtain ⟨hlast, ⟨hn, hskip⟩, hlines⟩ : _ ∧ _ ∧ _ := by simpa only [List.map_cons, List.forall_mem_cons] using h
    obtain ⟨line', hline', hsplit⟩ := splitLines_cons_skipped l.2
      ((lines.flatMap fun l => l.1 ++ if l.2 then ['\r', '\n'] else ['\n']) ++ last) hn hskip
    rw [List.flatMap_cons, List.append_assoc, hsplit]
    exact List.forall_mem_cons.mpr ⟨hline', ih (List.forall_mem_cons.mpr ⟨hlast, hlines⟩)⟩

theorem assembleLines_of_skipped (n : Nat) {lines : List (List Char)} (h : ∀ line ∈ lines, skippedLine line = true) :
    assembleLines n lines = .ok [] := by
  refine assembleLines_eq_ok.mpr ⟨lines.map fun _ => none, ?_, by simp⟩
  rw [List.map_map]
  exact List.map_congr_left fun line hl => (assembleLine_eq_none.mpr (h line hl)).symm

/-- Settles O57: a line gives nothing exactly when it is skipped, and a text of skipped lines has no other. -/
theorem skippedLinesGiveAnEmptyImage : Obligations.SkippedLinesGiveAnEmptyImage := by
  refine ⟨fun line => assembleLine_eq_none.trans (skippedLine_iff line), fun c lines last h => ?_⟩
  have hskip := skippedLine_of_mem_splitLines fun line hl => (h line hl).imp_right (skippedLine_iff line).mpr
  exact assemble_eq_ok.mpr ⟨[], assembleLines_of_skipped 1 hskip, rfl⟩

end Sys2Proof.Machine
end

section
/-! PROOFS. The assembler's instructions (30_encoding.md R71, R76 to R84, R88): what a line reads is a canonical
instruction, and the spelling of a canonical instruction is a line that reads it. -/

namespace Sys2Proof.Machine

/-! ### The canonical instructions, by operand form -/

/-- The canonical instructions with an implemented opcode, each by the operands its form reads (30_encoding.md R71). -/
inductive CanonicalForm : Instr → Prop where
  | n (op : Opcode) (h : op.form = .n) : CanonicalForm (Instr.build op 0 0 0)
  | r (op : Opcode) (h : op.form = .r) (r : Reg) : CanonicalForm (Instr.build op r.mask 0 0)
  | rr (op : Opcode) (h : op.form = .rr) (r1 r2 : Reg) : CanonicalForm (Instr.build op r1.mask r2.mask 0)
  | ri (op : Opcode) (h : op.form = .ri) (r : Reg) (v : Imm) : CanonicalForm (Instr.build op r.mask 0 v)

/-- A word is canonical field by field: a read register field is one-hot, and an unread field is zero. -/
theorem canonical_build_iff (op : Opcode) (m1 m2 : Byte) (imm : Imm) :
    (Instr.build op m1 m2 imm).canonical = true ↔
      (if op.form.readsReg1 then oneHot m1 = true else m1 = 0) ∧
      (if op.form.readsReg2 then oneHot m2 = true else m2 = 0) ∧ (if op.form.readsImm then True else imm = 0) := by
  cases hf : op.form <;>
    simp [Instr.canonical, Instr.wellFormed, Instr.form, hf, Form.readsReg1, Form.readsReg2, Form.readsImm, and_assoc]

theorem exists_mask_of_oneHot {m : Byte} (h : oneHot m = true) : ∃ r : Reg, m = r.mask := by
  rw [oneHot_eq_resolve] at h
  obtain ⟨r, hr⟩ := Option.isSome_iff_exists.mp h
  exact ⟨r, mask_of_resolve m r hr⟩

@[simp] theorem oneHot_mask (r : Reg) : oneHot r.mask = true := by
  rw [oneHot_eq_resolve, resolve_mask, Option.isSome_some]

theorem CanonicalForm.canonical {i : Instr} (h : CanonicalForm i) : i.canonical = true := by
  cases h with
  | n op hf | r op hf | rr op hf | ri op hf =>
    simp [canonical_build_iff, hf, Form.readsReg1, Form.readsReg2, Form.readsImm]

theorem CanonicalForm.implemented {i : Instr} (h : CanonicalForm i) : i.opcode.implemented = true := by
  cases h with
  | n op hf | r op hf | rr op hf | ri op hf => simp [Opcode.implemented, hf]

theorem canonicalForm_build {op : Opcode} {m1 m2 : Byte} {imm : Imm}
    (h : (Instr.build op m1 m2 imm).canonical = true) (hi : op.implemented = true) :
    CanonicalForm (Instr.build op m1 m2 imm) := by
  rw [canonical_build_iff] at h
  cases hf : op.form with
  | reserved => simp [Opcode.implemented, hf] at hi
  | n =>
    rw [hf] at h
    obtain ⟨rfl, rfl, rfl⟩ := h
    exact .n op hf
  | r =>
    rw [hf] at h
    obtain ⟨h1, rfl, rfl⟩ := h
    obtain ⟨r, rfl⟩ := exists_mask_of_oneHot h1
    exact .r op hf r
  | rr =>
    rw [hf] at h
    obtain ⟨h1, h2, rfl⟩ := h
    obtain ⟨r1, rfl⟩ := exists_mask_of_oneHot h1
    obtain ⟨r2, rfl⟩ := exists_mask_of_oneHot h2
    exact .rr op hf r1 r2
  | ri =>
    rw [hf] at h
    obtain ⟨h1, rfl, -⟩ := h
    obtain ⟨r, rfl⟩ := exists_mask_of_oneHot h1
    exact .ri op hf r imm

theorem canonicalForm_of_canonical {i : Instr} (h : i.canonical = true) (hi : i.opcode.implemented = true) :
    CanonicalForm i :=
  Instr.build_eq i ▸ canonicalForm_build ((Instr.build_eq i).symm ▸ h) hi

/-! ### What a line reads -/

theorem canonicalForm_of_readOperands {op : Opcode} {t : List Char} {i : Instr} (h : readOperands op t = .ok i) :
    CanonicalForm i := by
  unfold readOperands at h
  cases hf : op.form with
  | reserved => simp [hf] at h
  | n =>
    simp only [hf, Except.ok.injEq] at h
    exact h ▸ .n op hf
  | r =>
    cases hr : readOneReg t with
    | error e => simp [hf, hr] at h
    | ok r =>
      simp only [hf, hr, Except.ok.injEq] at h
      exact h ▸ .r op hf r
  | rr =>
    cases hr : readTwoRegs t with
    | error e => simp [hf, hr] at h
    | ok p =>
      simp only [hf, hr, Except.ok.injEq] at h
      exact h ▸ .rr op hf p.1 p.2
  | ri =>
    cases hr : readRegImm t with
    | error e => simp [hf, hr] at h
    | ok p =>
      simp only [hf, hr, Except.ok.injEq] at h
      exact h ▸ .ri op hf p.1 p.2

/-- The operands of a line are read with the mnemonic at its head. -/
theorem exists_operands_of_readInstr {line : List Char} {i : Instr} (h : readInstr line = .ok i) :
    ∃ op t, readOperands op t = .ok i := by
  unfold readInstr at h
  split at h
  next => simp at h
  next op rest hm =>
    split at h
    next => exact ⟨op, [], h⟩
    next =>
      split at h
      next t => exact ⟨op, t, h⟩
      next => simp at h

theorem canonicalForm_of_assembleLine {line : List Char} {i : Instr} (h : assembleLine line = .ok (some i)) :
    CanonicalForm i := by
  obtain ⟨-, hread⟩ := assembleLine_eq_some.mp h
  obtain ⟨op, t, ht⟩ := exists_operands_of_readInstr hread
  exact canonicalForm_of_readOperands ht

/-- Settles O56: each instruction of the outcome is what some line reads. -/
theorem assemblerWritesCanonicalWords : Obligations.AssemblerWritesCanonicalWords := by
  intro c text image h
  obtain ⟨is, his, himage⟩ := assemble_eq_ok.mp h
  obtain ⟨os, hos, rfl⟩ := assembleLines_eq_ok.mp his
  refine ⟨_, fun i hi => ?_, himage.symm⟩
  have hi : some i ∈ os := by simpa using hi
  obtain ⟨line, -, hline⟩ : ∃ line ∈ splitLines text, assembleLine line = .ok (some i) :=
    List.mem_map.mp (hos ▸ List.mem_map_of_mem hi)
  have hcanon := canonicalForm_of_assembleLine hline
  exact ⟨hcanon.canonical, hcanon.implemented⟩

/-! ### Registers and mnemonics read back -/

@[simp] theorem readReg_regText (r : Reg) : readReg (regText r) = some r := by
  cases r <;> rfl

theorem readOneReg_regText (r : Reg) : readOneReg (regText r) = .ok r := by
  have hne : (regText r).isEmpty = false := by cases r <;> rfl
  simp [readOneReg, hne]

theorem splitComma_regText (r : Reg) (t : List Char) :
    splitComma (regText r ++ ',' :: ' ' :: t) = some (regText r, t) := by
  cases r <;> rfl

theorem readTwoRegs_regText (r1 r2 : Reg) : readTwoRegs (regText r1 ++ ',' :: ' ' :: regText r2) = .ok (r1, r2) := by
  have hne : (regText r2).isEmpty = false := by cases r2 <;> rfl
  simp [readTwoRegs, splitComma_regText, hne]

/-- No mnemonic is the head of another, so the one a line starts with is found (30_encoding.md R76). -/
theorem matchMnemonic_mnemonicText {op : Opcode} (h : op.implemented = true) (rest : List Char) :
    matchMnemonic (mnemonicText op ++ rest) mnemonicOrder = some (op, rest) := by
  cases op with
  | jne | loa | sip => cases h
  | _ => rfl

theorem skippedLine_mnemonicText {op : Opcode} (h : op.implemented = true) (rest : List Char) :
    skippedLine (mnemonicText op ++ rest) = false := by
  cases op with
  | jne | loa | sip => cases h
  | _ => rfl

/-! ### Immediates read back -/

theorem digitValue_hexDigit {d : Nat} (h : d < 16) : digitValue (hexDigit d) = some d := by
  interval_cases d <;> rfl

theorem hexDigit_ne {d : Nat} (h : d < 16) {c : Char} (hc : digitValue c = none) : hexDigit d ≠ c := by
  rintro rfl
  simp [digitValue_hexDigit h] at hc

/-- The `k` lowest digits of a number, read after `acc`. -/
theorem readDigitsFrom_hexDigits (k acc n : Nat) :
    readDigitsFrom 16 acc (hexDigits k n) = some (acc * 16 ^ k + n % 16 ^ k) := by
  induction k generalizing acc with
  | zero => simp [hexDigits, readDigitsFrom, Nat.mod_one]
  | succ k ih =>
    have hd : n / 16 ^ k % 16 < 16 := Nat.mod_lt _ (by decide)
    simp only [hexDigits, readDigitsFrom, digitValue_hexDigit hd, if_pos hd, ih, Nat.mod_pow_succ]
    ring_nf

/-- Leading zeros do not count. -/
theorem readDigitsFrom_dropWhile_zero (t : List Char) :
    readDigitsFrom 16 0 (t.dropWhile (· == '0')) = readDigitsFrom 16 0 t := by
  induction t with
  | nil => rfl
  | cons c cs ih =>
    by_cases hc : c = '0'
    · subst hc
      exact ih
    · simp [hc]

theorem readImm_of_digits {ds : List Char} {v : Imm} (h : readDigits 16 ds = some v.toNat) :
    readImm ('0' :: 'x' :: ds) = some v := by
  simp [readImm, readHex, h, v.isLt]

/-- The hexadecimal text of an immediate reads back as it (30_encoding.md R83). -/
theorem readImm_immText (v : Imm) : readImm (immText v) = some v := by
  have hread : readDigitsFrom 16 0 ((hexDigits 8 v.toNat).dropWhile (· == '0')) = some v.toNat := by
    have hlt : v.toNat < 16 ^ 8 := v.isLt
    rw [readDigitsFrom_dropWhile_zero, readDigitsFrom_hexDigits, Nat.zero_mul, Nat.zero_add, Nat.mod_eq_of_lt hlt]
  unfold immText
  generalize (hexDigits 8 v.toNat).dropWhile (· == '0') = ds at hread
  cases ds with
  | nil => exact readImm_of_digits (ds := ['0']) hread
  | cons d ds => exact readImm_of_digits (ds := d :: ds) hread

theorem immText_ne_nil (v : Imm) : immText v ≠ [] := by
  unfold immText
  split <;> simp

theorem readRegImm_text (r : Reg) (v : Imm) : readRegImm (regText r ++ ',' :: ' ' :: immText v) = .ok (r, v) := by
  simp [readRegImm, splitComma_regText, readImm_immText, immText_ne_nil]

/-! ### Texts that are one line -/

/-- The text holds neither character of a line terminator (30_encoding.md R74). -/
def OneLine (t : List Char) : Prop := ∀ c ∈ t, c ≠ '\n' ∧ c ≠ '\r'

@[simp] theorem oneLine_nil : OneLine [] := nofun

@[simp] theorem oneLine_cons (c : Char) (t : List Char) : OneLine (c :: t) ↔ (c ≠ '\n' ∧ c ≠ '\r') ∧ OneLine t :=
  List.forall_mem_cons

@[simp] theorem oneLine_append (t u : List Char) : OneLine (t ++ u) ↔ OneLine t ∧ OneLine u :=
  List.forall_mem_append

@[simp] theorem oneLine_regText (r : Reg) : OneLine (regText r) := by
  cases r <;> simp [regText]

@[simp] theorem oneLine_mnemonicText (op : Opcode) : OneLine (mnemonicText op) := by
  cases op <;> simp [mnemonicText]

theorem oneLine_hexDigits (k n : Nat) : OneLine (hexDigits k n) := by
  induction k with
  | zero => exact oneLine_nil
  | succ k ih =>
    have hd : n / 16 ^ k % 16 < 16 := Nat.mod_lt _ (by decide)
    exact (oneLine_cons _ _).mpr ⟨⟨hexDigit_ne hd rfl, hexDigit_ne hd rfl⟩, ih⟩

@[simp] theorem oneLine_immText (v : Imm) : OneLine (immText v) := by
  have hds : OneLine ((hexDigits 8 v.toNat).dropWhile (· == '0')) := fun c hc =>
    oneLine_hexDigits 8 v.toNat c ((List.dropWhile_sublist _).subset hc)
  unfold immText
  split
  next => simp
  next => simpa using hds

/-- Such texts, each ended by a line feed, are the lines of the text they make up. -/
theorem splitLines_flatMap_oneLine {ts : List (List Char)} (h : ∀ t ∈ ts, OneLine t) :
    splitLines (ts.flatMap fun t => t ++ ['\n']) = ts := by
  induction ts with
  | nil => rfl
  | cons t ts ih =>
    obtain ⟨ht, hts⟩ := List.forall_mem_cons.mp h
    have hlf : '\n' ∉ t := fun hmem => (ht _ hmem).1 rfl
    have hcr : t.getLast? ≠ some '\r' := fun hlast => (ht _ (List.mem_of_getLast? hlast)).2 rfl
    rw [List.flatMap_cons, List.append_assoc, List.singleton_append, splitLines_append _ _ hlf, if_neg hcr, ih hts]

/-! ### Spellings read back -/

/-- A mnemonic, a space and the operands' text make a line that reads what the operands read. -/
theorem assembleLine_operands {op : Opcode} {t : List Char} {i : Instr} (hi : op.implemented = true)
    (hn : op.form ≠ .n) (h : readOperands op t = .ok i) :
    assembleLine (mnemonicText op ++ ' ' :: t) = .ok (some i) := by
  refine assembleLine_eq_some.mpr ⟨skippedLine_mnemonicText hi _, ?_⟩
  simp [readInstr, matchMnemonic_mnemonicText hi, hn, h]

/-- A mnemonic alone is a line of an instruction without operands. -/
theorem assembleLine_no_operands {op : Opcode} (hi : op.implemented = true) (hn : op.form = .n) :
    assembleLine (mnemonicText op) = .ok (some (Instr.build op 0 0 0)) := by
  have hskip := skippedLine_mnemonicText hi []
  have hmatch := matchMnemonic_mnemonicText hi []
  rw [List.append_nil] at hskip hmatch
  exact assembleLine_eq_some.mpr ⟨hskip, by simp [readInstr, hmatch, hn, readOperands]⟩

/-- A canonical instruction has a spelling, and the spelling is one line, which assembles to the instruction
(30_encoding.md R84, R88). -/
theorem CanonicalForm.spelling {i : Instr} (h : CanonicalForm i) :
    ∃ t, instrText i = some t ∧ OneLine t ∧ assembleLine t = .ok (some i) := by
  have hcanon := h.canonical
  have himpl := h.implemented
  cases h with
  | n op hf =>
    refine ⟨mnemonicText op, ?_, oneLine_mnemonicText op, ?_⟩
    · rw [instrText, if_pos hcanon]
      simp [Instr.form, hf]
    · exact assembleLine_no_operands (by simpa using himpl) hf
  | r op hf r =>
    refine ⟨mnemonicText op ++ ' ' :: regText r, ?_, by simp, ?_⟩
    · rw [instrText, if_pos hcanon]
      simp [Instr.form, hf]
    · exact assembleLine_operands (by simpa using himpl) (by simp [hf])
        (by simp [readOperands, hf, readOneReg_regText])
  | rr op hf r1 r2 =>
    refine ⟨mnemonicText op ++ ' ' :: regText r1 ++ ',' :: ' ' :: regText r2, ?_, by simp, ?_⟩
    · rw [instrText, if_pos hcanon]
      simp [Instr.form, hf]
    · rw [List.append_assoc, List.cons_append]
      exact assembleLine_operands (by simpa using himpl) (by simp [hf])
        (by simp [readOperands, hf, readTwoRegs_regText])
  | ri op hf r v =>
    refine ⟨mnemonicText op ++ ' ' :: regText r ++ ',' :: ' ' :: immText v, ?_, by simp, ?_⟩
    · rw [instrText, if_pos hcanon]
      simp [Instr.form, hf]
    · rw [List.append_assoc, List.cons_append]
      exact assembleLine_operands (by simpa using himpl) (by simp [hf])
        (by simp [readOperands, hf, readRegImm_text])

/-- Only a canonical instruction with an implemented opcode has a spelling. -/
theorem canonicalForm_of_instrText {i : Instr} {t : List Char} (h : instrText i = some t) : CanonicalForm i := by
  have hcanon : i.canonical = true := by_contra fun hc => by simp [instrText, hc] at h
  refine canonicalForm_of_canonical hcanon (bne_iff_ne.mpr fun hf => ?_)
  simp [instrText, Instr.form, hf] at h

theorem spelling_of_instrText {i : Instr} {t : List Char} (h : instrText i = some t) :
    OneLine t ∧ assembleLine t = .ok (some i) := by
  obtain ⟨u, hu, hspell⟩ := (canonicalForm_of_instrText h).spelling
  exact Option.some.inj (hu.symm.trans h) ▸ hspell

/-- Settles O55: the spellings are the lines of the file, and each line reads its instruction. -/
theorem assemblingSpellingsGivesTheImage : Obligations.AssemblingSpellingsGivesTheImage := by
  refine ⟨fun i hc hi => ?_, fun c p hp => ?_⟩
  · obtain ⟨t, ht, -⟩ := (canonicalForm_of_canonical hc hi).spelling
    exact Option.isSome_iff_exists.mpr ⟨t, ht⟩
  · have hlines : splitLines (p.flatMap fun x => x.2 ++ ['\n']) = p.map Prod.snd := by
      rw [← List.flatMap_map Prod.snd fun t => t ++ ['\n']]
      exact splitLines_flatMap_oneLine (List.forall_mem_map.mpr fun x hx => (spelling_of_instrText (hp x hx)).1)
    have his : assembleLines 1 (p.map Prod.snd) = .ok (p.map Prod.fst) := by
      refine assembleLines_eq_ok.mpr ⟨p.map fun x => some x.1, ?_, ?_⟩
      · rw [List.map_map, List.map_map]
        exact List.map_congr_left fun x hx => (spelling_of_instrText (hp x hx)).2.symm
      · rw [List.flatMap_map, List.map_eq_flatMap]
        rfl
    exact assemble_eq_ok.mpr ⟨_, hlines ▸ his, List.flatMap_map ..⟩

end Sys2Proof.Machine
end

section
/-! PROOFS. The tick (40_execution_cycle.md R100 to R113): what the step of a core is when the fetch fails, when it
finds an instruction, and when the core has stopped. -/

namespace Sys2Proof.Machine

/-! ### A fault taken -/

theorem raises_raise (f : FaultClass) (s : State) : Raises f s.ip s (s.raise f) :=
  ⟨rfl, rfl, fun _ => rfl, rfl, rfl, rfl, fun _ => rfl, ⟨rfl, rfl, rfl⟩, rfl⟩

/-- A fault after the fetch keeps `IP` advanced (60_exceptions.md R208). -/
theorem raises_advanceIp_raise (f : FaultClass) (s : State) : Raises f (s.ip + 8#64) s (s.advanceIp.raise f) :=
  ⟨rfl, rfl, fun _ => rfl, rfl, rfl, rfl, fun _ => rfl, ⟨rfl, rfl, rfl⟩, rfl⟩

theorem status_raise {s : State} (hr : s.status = .running) (f : FaultClass) : (s.raise f).status = .faulted := by
  obtain ⟨hundef, hef, -⟩ := (status_running s).mp hr
  refine status_faulted_of hundef ?_
  simpa [State.raise, hef] using faultMask_ne_zero s.cfg f

/-! ### A fetch that fails -/

theorem step_of_checkAddr {s : State} {f : FaultClass} (hr : s.status = .running) (hc : checkAddr s.ip = some f) :
    step s = .next (s.raise f) := by
  simp [step_eq_tick hr, tick, State.fetch, hc]

/-- A failed fetch raises the class of the failed check and reads no byte of memory (40_execution_cycle.md R101,
R102). -/
theorem step_raises_of_checkAddr {s : State} {f : FaultClass} (hr : s.status = .running)
    (hc : checkAddr s.ip = some f) :
    ∃ t, step s = .next t ∧ Raises f s.ip s t ∧ t.status = .faulted ∧
      ∀ m : Memory, step (s.setMem m) = .next (t.setMem m) :=
  ⟨s.raise f, step_of_checkAddr hr hc, raises_raise f s, status_raise hr f,
    fun m => step_of_checkAddr (s := s.setMem m) hr hc⟩

/-- Settles O8: above the last word the range check fails, whatever the alignment. -/
theorem fetchBeyondMemoryRaisesAddr : Obligations.FetchBeyondMemoryRaisesAddr :=
  fun s hr hlt => step_raises_of_checkAddr hr ((checkAddr_addr_iff s.ip).mpr hlt)

/-- Settles O9: in range the alignment check fails. -/
theorem misalignedFetchRaisesMisalign : Obligations.MisalignedFetchRaisesMisalign :=
  fun s hr hle hmod => step_raises_of_checkAddr hr ((checkAddr_misalign_iff s.ip).mpr ⟨hle, hmod⟩)

/-! ### A fetch that finds an instruction -/

/-- Decoding the eight bytes at an address is decoding the word there (20_memory.md R42). -/
theorem decodeBytes_bytesAt {c : Config} {m : Memory} {a : Nat} {i : Instr} :
    decodeBytes c (bytesAt m a) = .ok (i, []) ↔ decode c (Memory.readWord c.byteOrder m a) = .ok i := by
  have hbytes : decodeBytes c (bytesAt m a) = (decode c (Memory.readWord c.byteOrder m a)).map (·, []) := by
    simp only [bytesAt, List.range, List.range.loop, List.map, decodeBytes, Memory.readWord, Nat.add_zero]
    split <;> simp_all [Except.map]
  rw [hbytes]
  cases decode c (Memory.readWord c.byteOrder m a) <;> simp [Except.map]

/-- Settles O7: the fetch passes both checks, so the word at `IP` is the one the tick decodes. -/
theorem stepRunsTheDecodedInstruction : Obligations.StepRunsTheDecodedInstruction := by
  intro s i hr hle hmod hdec
  refine step_of_current s i hr ((current_eq_some s i).mpr ⟨?_, decodeBytes_bytesAt.mp hdec⟩)
  exact (checkAddr_none_iff s.ip).mpr ⟨hle, hmod⟩

/-! ### A stopped core -/

theorem step_of_stopped {s : State} (h : s.status = .halted ∨ s.status = .faulted) : step s = .next s := by
  have hundef : s.undef = none := by
    by_contra hne
    simp [(status_undefined s).mpr hne] at h
  obtain h | h := h <;> simp [step, cycle, hundef, h]

theorem step_of_undefined {s : State} (h : s.status = .undefined) : ∃ r, step s = .fault (.undefinedStop r) := by
  obtain ⟨r, hr⟩ := Option.ne_none_iff_exists'.mp ((status_undefined s).mp h)
  exact ⟨r, by simp [step, cycle, hr]⟩

/-- What answers itself in one step answers itself in any number of steps. -/
theorem runsTo_self {s : State} (h : step s = .next s) (k : Nat) : RunsTo k s s := by
  induction k with
  | zero => rfl
  | succ k ih => exact runsTo_succ.mpr ⟨s, h, ih⟩

/-- Settles O13: a halted or faulted core answers its own state, step after step. -/
theorem stoppedCoreNeverTicks : Obligations.StoppedCoreNeverTicks :=
  ⟨fun _ k h => runsTo_self (step_of_stopped h) k, fun _ => step_of_undefined⟩

/-! ### Every step answers -/

theorem tick_answers (s : State) : ∃ t, tick s = .next t := by
  unfold tick
  split
  · exact ⟨_, rfl⟩
  · split
    next i _ =>
      obtain ⟨t, ht, -⟩ := exec_effect i s
      exact ⟨t, ht⟩
    next => exact ⟨_, rfl⟩

/-- Settles O14: a running core's tick answers, a halted or faulted core answers itself, and an UNDEFINED stop
faults. -/
theorem stepAnswersUnlessUndefined : Obligations.StepAnswersUnlessUndefined := by
  intro s
  cases hs : s.status with
  | running => exact .inl ⟨nofun, step_eq_tick hs ▸ tick_answers s⟩
  | halted => exact .inl ⟨nofun, s, step_of_stopped (.inl hs)⟩
  | faulted => exact .inl ⟨nofun, s, step_of_stopped (.inr hs)⟩
  | undefined => exact .inr ⟨rfl, step_of_undefined hs⟩

end Sys2Proof.Machine
end

section
/-! PROOFS. What one instruction does (40_execution_cycle.md R105 to R108): a bad register field ends it in BADREG, and
any other instruction makes at most one write beside `IP`. -/

namespace Sys2Proof.Machine

/-! ### A bad register field -/

theorem binaryOp_bad {m1 m2 : Byte} (f : Word → Word → Word) (s : State)
    (h : resolve m1 = none ∨ resolve m2 = none) : binaryOp m1 m2 f s = .next s.badRegister :=
  withRR_bad m1 m2 s _ h

theorem conditionalJump_bad {m1 : Byte} (t : JumpTest) (s : State) (h : resolve m1 = none) :
    conditionalJump m1 t s = .next s.badRegister :=
  withR_bad m1 s _ h

/-- The fields are resolved before the body runs, so a bad one that the form reads leaves BADREG alone
(40_execution_cycle.md R106, R107). -/
theorem exec_of_bad_field {i : Instr} {s : State} (hi : i.opcode.implemented = true)
    (hs : i.opcode = .sto → s.cfg.stoImplemented = true)
    (hbad : (i.form.readsReg1 = true ∧ resolve i.reg1 = none) ∨ (i.form.readsReg2 = true ∧ resolve i.reg2 = none)) :
    exec i s = .next s.badRegister := by
  cases i with
  | hlt | nop => simp [Instr.form, Instr.opcode, Opcode.form, Form.readsReg1, Form.readsReg2] at hbad
  | jne | loa | sip => cases hi
  | add | sub | mul | and | or | xor => exact binaryOp_bad _ s (hbad.imp And.right And.right)
  | cmp m1 m2 | div m1 m2 =>
    simp only [exec, execCmp, execDiv]
    exact withRR_bad m1 m2 s _ (hbad.imp And.right And.right)
  | jeq | jlt | jle | jgt | jge => exact conditionalJump_bad _ s (hbad.elim And.right (nomatch ·.1))
  | not m1 | jmp m1 | mov m1 | ior m1 | iow m1 =>
    simp only [exec, execNot, execJmp, execMov, execIor, execIow]
    exact withR_bad m1 s _ (hbad.elim And.right (nomatch ·.1))
  | sto m1 =>
    simp only [exec, execSto, hs rfl, if_true]
    exact withR_bad m1 s _ (hbad.elim And.right (nomatch ·.1))

/-- Settles O12: the step of `exec` that resolves the fields ends in `State.badRegister`, which raises BADREG alone. -/
theorem badRegisterFieldRaisesBadreg : Obligations.BadRegisterFieldRaisesBadreg :=
  fun _ s hi hs hbad => ⟨s.badRegister, exec_of_bad_field hi hs hbad, raises_advanceIp_raise .badreg s⟩

/-! ### One write -/

/-- Of the registers, `AF`, `IP` beyond its advance, memory and the streams, an instruction writes at most one, a
register together with the input byte it comes from; or it is an `ior` that holds. -/
def OneWrite (i : Instr) (s t : State) : Prop :=
  (∃ r, resolve i.reg1 = some r ∧ SameRegsBut r s t ∧ t.af = s.af ∧
    (t.ip = s.ip + 8#64 ∨ (i.opcode = .ior ∧ t = s)) ∧ SameMemory s t ∧ t.output = s.output ∧
    (t.input = s.input ∨ (i.opcode = .ior ∧ ∃ b, s.input = b :: t.input))) ∨
  ((i.opcode = .cmp ∨ t.af = s.af) ∧ SameRegs s t ∧ t.ip = s.ip + 8#64 ∧ SameMemory s t ∧ SameStreams s t) ∨
  (i.opcode ∈ [.jmp, .jeq, .jlt, .jle, .jgt, .jge] ∧ SameRegs s t ∧ t.af = s.af ∧ SameMemory s t ∧
    SameStreams s t) ∨
  (i.opcode = .sto ∧ SameRegs s t ∧ t.af = s.af ∧ t.ip = s.ip + 8#64 ∧
    SameMemoryBut (stoAddr i.imm).toNat s t ∧ SameStreams s t) ∨
  (i.opcode = .iow ∧ SameRegs s t ∧ t.af = s.af ∧ t.ip = s.ip + 8#64 ∧ SameMemory s t ∧ t.input = s.input ∧
    ∃ b, t.output = s.output ++ [b])

/-- Every effect makes at most one write; one that stops the core makes none. -/
theorem Effect.oneWrite {s t : State} {i : Instr} (h : Effect s i t) : OneWrite i s t := by
  cases h with
  | register _ r h1 | endOfInput _ r h1 =>
    exact .inl ⟨r, h1, fun q hq => s.advanceIp.readReg_writeReg_of_ne r q _ hq, rfl, .inl rfl, fun _ => rfl, rfl,
      .inl rfl⟩
  | takeByte hop r h1 b rest hin =>
    exact .inl ⟨r, h1, fun q hq => (s.advanceIp.setInput rest).readReg_writeReg_of_ne r q _ hq, rfl, .inl rfl,
      fun _ => rfl, rfl, .inr ⟨hop, b, hin⟩⟩
  | hold hop r h1 =>
    exact .inl ⟨r, h1, fun _ _ => rfl, rfl, .inr ⟨hop, rfl⟩, fun _ => rfl, rfl, .inl rfl⟩
  | compare hop => exact .inr (.inl ⟨.inl hop, fun _ => rfl, rfl, fun _ => rfl, rfl, rfl, rfl⟩)
  | noHandler | badRegister | storeFault | halt | divByZero | advance =>
    exact .inr (.inl ⟨.inr rfl, fun _ => rfl, rfl, fun _ => rfl, rfl, rfl, rfl⟩)
  | jump hj =>
    exact .inr (.inr (.inl ⟨mem_jumps_of_jumps _ hj, fun _ => rfl, rfl, fun _ => rfl, rfl, rfl, rfl⟩))
  | store hop =>
    exact .inr (.inr (.inr (.inl ⟨hop, fun _ => rfl, rfl, rfl,
      fun c hc => Memory.read_writeWord_of_outside _ _ _ c _ hc, rfl, rfl, rfl⟩)))
  | output hop => exact .inr (.inr (.inr (.inr ⟨hop, fun _ => rfl, rfl, rfl, fun _ => rfl, rfl, _, rfl⟩)))

/-! ### The stops -/

theorem ne_hlt_of_form {i : Instr} (h : i.form ≠ .n) : i.opcode ≠ .hlt :=
  fun hop => h (by simp [Instr.form, hop, Opcode.form])

theorem form_ne_n_of_not_wellFormed {i : Instr} (h : i.wellFormed = false) : i.form ≠ .n :=
  fun hf => by simp [Instr.wellFormed, hf, Form.readsReg1, Form.readsReg2] at h

theorem ne_hlt_and_ne_div_of_jumps {op : Opcode} (h : Opcode.jumps op = true) : op ≠ .hlt ∧ op ≠ .div :=
  ⟨fun hop => by simp [hop, Opcode.jumps] at h, fun hop => by simp [hop, Opcode.jumps] at h⟩

/-- The stop of an instruction: a fault, and not a `hlt`'s; a `hlt`'s; a `div`'s by zero; or none, and then it is no
`hlt` and no `div` by zero. -/
theorem Effect.stops {s t : State} {i : Instr} (h : Effect s i t) :
    (i.opcode ≠ .hlt ∧ ∃ f, Raises f (s.ip + 8#64) s t) ∨
    (i.opcode = .hlt ∧ OnlyHalt s t) ∨
    (i.opcode = .div ∧ (∃ r2, resolve i.reg2 = some r2 ∧ s.readReg r2 = 0#64) ∧ OnlyUndefined s t) ∨
    (i.opcode ≠ .hlt ∧ (i.opcode = .div → ∀ r2, resolve i.reg2 = some r2 → s.readReg r2 ≠ 0#64) ∧
      SameStops s t) := by
  cases h with
  | noHandler h =>
    refine .inl ⟨?_, .unkinsn, raises_unknownInstruction s⟩
    obtain h | ⟨hop, -⟩ := h
    · exact ne_hlt_of_form (by simp [h])
    · simp [hop]
  | badRegister h =>
    exact .inl ⟨ne_hlt_of_form (form_ne_n_of_not_wellFormed h), .badreg, raises_advanceIp_raise .badreg s⟩
  | storeFault hop _ _ _ f => exact .inl ⟨by simp [hop], f, raises_advanceIp_raise f s⟩
  | halt hop =>
    exact .inr (.inl ⟨hop, rfl, rfl, fun _ => rfl, rfl, rfl, rfl, fun _ => rfl, ⟨rfl, rfl, rfl⟩, rfl⟩)
  | divByZero hop r2 h2 hz =>
    exact .inr (.inr (.inl ⟨hop, ⟨r2, h2, hz⟩, rfl, rfl, fun _ => rfl, rfl, rfl, rfl, fun _ => rfl,
      ⟨rfl, rfl, rfl⟩, rfl⟩))
  | register hw _ _ hd =>
    refine .inr (.inr (.inr ⟨fun hop => ?_, hd, rfl, rfl, rfl⟩))
    simp [hop, Opcode.writesRegister] at hw
  | advance h =>
    obtain ⟨hhlt, hdiv⟩ : i.opcode ≠ .hlt ∧ i.opcode ≠ .div :=
      h.elim (fun hop => by simp [hop]) ne_hlt_and_ne_div_of_jumps
    exact .inr (.inr (.inr ⟨hhlt, fun hop => absurd hop hdiv, rfl, rfl, rfl⟩))
  | jump hj =>
    obtain ⟨hhlt, hdiv⟩ := ne_hlt_and_ne_div_of_jumps hj
    exact .inr (.inr (.inr ⟨hhlt, fun hop => absurd hop hdiv, rfl, rfl, rfl⟩))
  | compare hop | store hop | takeByte hop | endOfInput hop | hold hop | output hop =>
    exact .inr (.inr (.inr ⟨by simp [hop], by simp [hop], rfl, rfl, rfl⟩))

/-- Settles O45: an instruction has one of the effects, and each makes at most one write and at most one stop. -/
theorem instructionWritesOneThing : Obligations.InstructionWritesOneThing := by
  intro i s
  obtain ⟨t, ht, he⟩ := exec_effect i s
  refine ⟨t, ht, he.inputEnded_eq, he.cfg_eq, ?_⟩
  obtain hfault | hhalt | hundef | ⟨hop, hdiv, hsame⟩ := he.stops
  · exact .inl hfault
  · exact .inr (.inl hhalt)
  · exact .inr (.inr (.inl hundef))
  · exact .inr (.inr (.inr ⟨hop, hdiv, hsame, he.oneWrite⟩))

end Sys2Proof.Machine
end

section
/-! PROOFS. The ALU (41_alu.md R120 to R128): what each operation writes, and that it writes nothing else. -/

namespace Sys2Proof.Machine

/-! ### One register written -/

theorem onlyRegister_advanceIp_writeReg (r : Reg) (v : Word) (s : State) :
    OnlyRegister r s (s.advanceIp.writeReg r v) :=
  ⟨fun q hq => s.advanceIp.readReg_writeReg_of_ne r q v hq, rfl, rfl, ⟨rfl, rfl, rfl⟩, fun _ => rfl,
    ⟨rfl, rfl, rfl⟩, rfl⟩

/-- The operations of `binaryOp`'s shape write `f` of the two registers, both read before the write, so that the two
may be the same register (40_execution_cycle.md R114). -/
theorem binaryOp_mask (f : Word → Word → Word) (r1 r2 : Reg) (s : State) :
    ∃ t, binaryOp r1.mask r2.mask f s = .next t ∧ t.readReg r1 = f (s.readReg r1) (s.readReg r2) ∧
      OnlyRegister r1 s t :=
  ⟨_, withRR_mask r1 r2 s _, State.readReg_writeReg_same _ r1 _, onlyRegister_advanceIp_writeReg r1 _ s⟩

/-- `BitVec.toNat_sub`, its sum and difference in the order of a subtraction modulo 2^64 (41_alu.md R122). -/
theorem toNat_sub_eq_mod (a b : Word) : (a - b).toNat = (2 ^ 64 + a.toNat - b.toNat) % 2 ^ 64 := by
  rw [BitVec.toNat_sub, Nat.sub_add_comm b.isLt.le]

/-- Settles O16: the three are `binaryOp_mask`, and the operations of `BitVec` are those of `Nat` modulo 2^64. -/
theorem addSubMulAreModular : Obligations.AddSubMulAreModular := by
  intro r1 r2 imm s
  refine ⟨?add, ?sub, ?mul⟩
  case add =>
    obtain ⟨t, ht, hv, honly⟩ := binaryOp_mask (· + ·) r1 r2 s
    exact ⟨t, ht, by rw [hv, BitVec.toNat_add], honly⟩
  case sub =>
    obtain ⟨t, ht, hv, honly⟩ := binaryOp_mask (· - ·) r1 r2 s
    exact ⟨t, ht, by rw [hv, toNat_sub_eq_mod], honly⟩
  case mul =>
    obtain ⟨t, ht, hv, honly⟩ := binaryOp_mask (· * ·) r1 r2 s
    exact ⟨t, ht, by rw [hv, BitVec.toNat_mul], honly⟩

/-- With a bad register field the operations of `binaryOp`'s shape raise BADREG alone (the spec's decision D13). -/
theorem binaryOp_raises_badreg {m1 m2 : Byte} (f : Word → Word → Word) (s : State)
    (h : resolve m1 = none ∨ resolve m2 = none) :
    ∃ t, binaryOp m1 m2 f s = .next t ∧ Raises .badreg (s.ip + 8#64) s t :=
  ⟨_, binaryOp_bad f s h, raises_advanceIp_raise .badreg s⟩

/-- Settles O19: the three are `binaryOp_mask` on good fields and `binaryOp_raises_badreg` on bad ones. -/
theorem andOrXorAreBitwise : Obligations.AndOrXorAreBitwise := by
  refine ⟨fun r1 r2 imm s => ⟨?and, ?or, ?xor⟩, fun m1 m2 imm s hbad => ⟨?_, ?_, ?_⟩, rfl, rfl, rfl⟩
  case and =>
    obtain ⟨t, ht, hv, honly⟩ := binaryOp_mask (· &&& ·) r1 r2 s
    exact ⟨t, ht, fun k => by rw [hv, BitVec.getLsbD_and], honly⟩
  case or =>
    obtain ⟨t, ht, hv, honly⟩ := binaryOp_mask (· ||| ·) r1 r2 s
    exact ⟨t, ht, fun k => by rw [hv, BitVec.getLsbD_or], honly⟩
  case xor =>
    obtain ⟨t, ht, hv, honly⟩ := binaryOp_mask (· ^^^ ·) r1 r2 s
    exact ⟨t, ht, fun k => by rw [hv, BitVec.getLsbD_xor], honly⟩
  all_goals exact binaryOp_raises_badreg _ s hbad

/-- `not` resolves `reg1` alone (41_alu.md R128). -/
theorem exec_not_mask (r1 : Reg) (m2 : Byte) (imm : Imm) (s : State) :
    exec (.not r1.mask m2 imm) s = .next (s.advanceIp.writeReg r1 (~~~(s.readReg r1))) := by
  simp [exec, execNot]

/-- Settles O20: by `exec_not_mask`, whatever `reg2` holds. -/
theorem notComplementsEveryBit : Obligations.NotComplementsEveryBit := by
  intro r1 m2 imm s
  refine ⟨_, exec_not_mask r1 m2 imm s, fun k hk => ?_, onlyRegister_advanceIp_writeReg r1 _ s⟩
  rw [State.readReg_writeReg_same, BitVec.getLsbD_not, decide_eq_true hk, Bool.true_and]

/-! ### `div` -/

/-- `div` by a divisor that is not 0 (41_alu.md R124). -/
theorem exec_div_of_ne_zero {r2 : Reg} {s : State} (hne : s.readReg r2 ≠ 0#64) (r1 : Reg) (imm : Imm) :
    exec (.div r1.mask r2.mask imm) s = .next (s.advanceIp.writeReg r1 (s.readReg r1 / s.readReg r2)) := by
  simp [exec, execDiv, hne]

/-- `div` by 0 (41_alu.md R124, 60_exceptions.md R210). -/
theorem exec_div_of_eq_zero {r2 : Reg} {s : State} (hz : s.readReg r2 = 0#64) (r1 : Reg) (imm : Imm) :
    exec (.div r1.mask r2.mask imm) s = .next (s.advanceIp.stopUndefined .divByZero) := by
  simp [exec, execDiv, hz]

/-- Settles O17: by `exec_div_of_ne_zero`, and the division of `BitVec` is that of `Nat`. -/
theorem divGivesTheUnsignedQuotient : Obligations.DivGivesTheUnsignedQuotient := by
  intro r1 r2 imm s hne
  refine ⟨_, exec_div_of_ne_zero hne r1 imm, ?_, onlyRegister_advanceIp_writeReg r1 _ s⟩
  rw [State.readReg_writeReg_same, BitVec.toNat_udiv]

theorem step_of_undef {s : State} {r : UndefReason} (h : s.undef = some r) :
    step s = .fault (.undefinedStop r) := by
  simp [step, cycle, h]

/-- Settles O18: `exec_div_of_eq_zero` sets `UNDEF`, and a core with `UNDEF` set takes no step. -/
theorem divByZeroIsTheUndefinedStop : Obligations.DivByZeroIsTheUndefinedStop := by
  intro r1 r2 imm s hz
  have hundef : (s.advanceIp.stopUndefined .divByZero).undef = some .divByZero := rfl
  exact ⟨_, exec_div_of_eq_zero hz r1 imm, hundef, rfl, rfl, fun _ => rfl, rfl, rfl, rfl,
    fun _ => rfl, ⟨rfl, rfl, rfl⟩, rfl, step_of_undef hundef⟩

/-! ### `cmp` -/

theorem bitMask_getElem (p k : Fin 8) : (bitMask p)[(k : Nat)] = decide (k = p) := by
  revert p k; decide

/-- A compare sets `E`, `G` or `L` by the order of its operands as numbers (41_alu.md R120). -/
theorem compareMask_getLsbD (c : Config) (a b : Word) (k : Fin 8) :
    (compareMask c a b).getLsbD k =
      (decide (k = c.af.e) && decide (a.toNat = b.toNat) || decide (k = c.af.g) && decide (b.toNat < a.toNat) ||
        decide (k = c.af.l) && decide (a.toNat < b.toNat)) := by
  unfold compareMask
  simp only [BitVec.lt_def, ← BitVec.toNat_inj]
  obtain hlt | heq | hgt := Nat.lt_trichotomy a.toNat b.toNat
  · simp [hlt.ne, hlt.not_gt, hlt, ltMask, bitMask_getElem]
  · simp [heq, eqMask, bitMask_getElem]
  · simp [hgt.ne', hgt.not_gt, hgt, gtMask, bitMask_getElem]

theorem exec_cmp_mask (r1 r2 : Reg) (imm : Imm) (s : State) :
    exec (.cmp r1.mask r2.mask imm) s =
      .next (s.advanceIp.orAf (compareMask s.cfg (s.readReg r1) (s.readReg r2))) := by
  simp [exec, execCmp]

/-- Settles O21: `cmp` ORs the mask of `compareMask_getLsbD` into `AF`. -/
theorem cmpAccumulatesOneFlag : Obligations.CmpAccumulatesOneFlag := by
  intro r1 r2 imm s
  refine ⟨_, exec_cmp_mask r1 r2 imm s, fun k => ?_, rfl, fun _ => rfl, ⟨rfl, rfl, rfl⟩, fun _ => rfl,
    ⟨rfl, rfl, rfl⟩, rfl⟩
  rw [State.orAf_af, State.advanceIp_af, BitVec.getLsbD_or, compareMask_getLsbD]
  simp only [Bool.or_assoc]

end Sys2Proof.Machine
end

section
/-! PROOFS. The jumps (42_control_transfer.md R140 to R148): where each goes, and that it changes nothing but `IP`. -/

namespace Sys2Proof.Machine

/-! ### `IP` written -/

theorem onlyIp_setIp (s : State) (v : Word) : OnlyIp s (s.setIp v) :=
  ⟨fun _ => rfl, rfl, ⟨rfl, rfl, rfl⟩, fun _ => rfl, ⟨rfl, rfl, rfl⟩, rfl⟩

theorem status_setIp (s : State) (v : Word) : (s.setIp v).status = s.status := rfl

/-! ### `jmp` -/

theorem exec_jmp_mask (r : Reg) (m2 : Byte) (imm : Imm) (s : State) :
    exec (.jmp r.mask m2 imm) s = .next (s.setIp (s.readReg r)) := by
  simp only [exec, execJmp, withR_mask]
  rfl

/-- An address that fails the access check fails the range test when it is beyond the last word, and the alignment test
otherwise (20_memory.md R45). -/
theorem checkAddr_eq_some_of_bad {a : Word} (h : 0xFFFFF8 < a.toNat ∨ a.toNat % 8 ≠ 0) :
    checkAddr a = some (if 0xFFFFF8 < a.toNat then .addr else .misalign) := by
  split
  next hlt => exact (checkAddr_addr_iff a).mpr hlt
  next hle => exact (checkAddr_misalign_iff a).mpr ⟨not_lt.mp hle, h.resolve_left hle⟩

/-- Settles O22: by `exec_jmp_mask`; a bad target is not checked until the fetch of the next step. -/
theorem jmpSetsIpToTheRegister : Obligations.JmpSetsIpToTheRegister := by
  refine ⟨fun r m2 imm s => ?completes, fun r m2 imm s hnext => ?next, fun r m2 imm s hself => ?self,
    fun r m2 imm s hr hbad => ?bad, rfl⟩
  case completes => exact ⟨_, exec_jmp_mask r m2 imm s, rfl, onlyIp_setIp s _⟩
  case next => rw [exec_jmp_mask, hnext]; rfl
  case self => rw [exec_jmp_mask, hself]; rfl
  case bad =>
    have hrun : (s.setIp (s.readReg r)).status = .running := (status_setIp s _).trans hr
    exact ⟨_, _, _, exec_jmp_mask r m2 imm s, step_of_checkAddr hrun (checkAddr_eq_some_of_bad hbad),
      raises_raise _ _, rfl⟩

/-! ### The conditional jumps -/

theorem conditionalJump_mask (r : Reg) (j : JumpTest) (s : State) :
    conditionalJump r.mask j s =
      .next (s.setIp (if jumpTaken s.cfg j s.af then s.readReg r else s.ip + 8#64)) := by
  rw [conditionalJump, withR_mask, State.advanceIp_cfg, State.advanceIp_af]
  cases jumpTaken s.cfg j s.af <;> rfl

theorem jumpsWhen_of_conditionalJump {i : Instr} {r : Reg} {j : JumpTest} {taken : Bool} {s : State}
    (hi : exec i s = conditionalJump r.mask j s) (ht : jumpTaken s.cfg j s.af = taken) : JumpsWhen i r taken s := by
  subst ht
  exact ⟨_, hi.trans (conditionalJump_mask r j s), rfl, onlyIp_setIp s _⟩

theorem and_bitMask_bne_zero (x : Byte) (p : Fin 8) : (x &&& bitMask p != 0#8) = x.getLsbD p := by
  have hand : x &&& bitMask p = if x.getLsbD p then bitMask p else 0#8 := by
    rw [bitMask, ← BitVec.twoPow_eq, BitVec.and_twoPow]
  rw [hand]
  cases x.getLsbD p with
  | true => simpa using bitMask_ne_zero p
  | false => rfl

theorem and_or_bne_zero (x a b : Byte) : (x &&& (a ||| b) != 0#8) = (x &&& a != 0#8 || x &&& b != 0#8) := by
  rw [Bool.eq_iff_iff]
  simp [BitVec.and_or_distrib_left, BitVec.or_eq_zero_iff, imp_iff_not_or]

theorem and_or_bitMask_bne_zero (x : Byte) (p q : Fin 8) :
    (x &&& (bitMask p ||| bitMask q) != 0#8) = (x.getLsbD p || x.getLsbD q) := by
  rw [and_or_bne_zero, and_bitMask_bne_zero, and_bitMask_bne_zero]

/-- A jump is taken when one of the flags it tests is set, not when all of them are (the spec's decision D9). -/
theorem jumpTaken_eq_flags (c : Config) (j : JumpTest) (af : Byte) :
    jumpTaken c j af =
      match j with
      | .eq => af.getLsbD c.af.e
      | .lt => af.getLsbD c.af.l
      | .le => af.getLsbD c.af.e || af.getLsbD c.af.l
      | .gt => af.getLsbD c.af.g
      | .ge =>
        match c.jgeCond with
        | .asObserved => af.getLsbD c.af.e || af.getLsbD c.af.l
        | .corrected => af.getLsbD c.af.g || af.getLsbD c.af.e := by
  cases j with
  | eq | lt | gt => exact and_bitMask_bne_zero af _
  | le => exact and_or_bitMask_bne_zero af _ _
  | ge =>
    simp only [jumpTaken, condMask]
    cases c.jgeCond with
    | asObserved | corrected => exact and_or_bitMask_bne_zero af _ _

/-- Settles O23: the five are `conditionalJump`, taken as `jumpTaken_eq_flags` says. -/
theorem conditionalJumpsTestTheirFlags : Obligations.ConditionalJumpsTestTheirFlags := fun _ _ _ s =>
  ⟨jumpsWhen_of_conditionalJump rfl (jumpTaken_eq_flags s.cfg .eq s.af),
    jumpsWhen_of_conditionalJump rfl (jumpTaken_eq_flags s.cfg .lt s.af),
    jumpsWhen_of_conditionalJump rfl (jumpTaken_eq_flags s.cfg .le s.af),
    jumpsWhen_of_conditionalJump rfl (jumpTaken_eq_flags s.cfg .gt s.af),
    jumpsWhen_of_conditionalJump rfl (jumpTaken_eq_flags s.cfg .ge s.af)⟩

/-! ### Conditions in a run -/

/-- More flags set never make a condition fail. -/
theorem jumpTaken_or {c : Config} {j : JumpTest} {af : Byte} (h : jumpTaken c j af = true) (m : Byte) :
    jumpTaken c j (af ||| m) = true := by
  simp only [jumpTaken, bne_iff_ne, ne_eq, BitVec.and_or_distrib_right, BitVec.or_eq_zero_iff] at h ⊢
  exact fun hzero => h hzero.1

theorem step_jumpTaken (j : JumpTest) (s t : State) (h : step s = .next t) (hs : jumpTaken s.cfg j s.af = true) :
    jumpTaken t.cfg j t.af = true := by
  rw [step_cfg h]
  obtain haf | ⟨_, _, _, a, b, -, haf⟩ := step_af h
  · rwa [haf]
  · exact haf ▸ jumpTaken_or hs _

/-- Settles O24: every step keeps a condition that holds, so a run does. -/
theorem onceTakenAlwaysTaken : Obligations.OnceTakenAlwaysTaken :=
  fun _ _ _ j hrun => hrun.keeps (P := fun u => jumpTaken u.cfg j u.af = true) (step_jumpTaken j)

end Sys2Proof.Machine
end

section
/-! PROOFS. `mov`, `sto`, `ior` and `iow` (43_move_store_io.md R160 to R170): what each writes, and that it writes
nothing else. -/

namespace Sys2Proof.Machine

/-! ### `mov` -/

theorem exec_mov_mask (r : Reg) (m2 : Byte) (imm : Imm) (s : State) :
    exec (.mov r.mask m2 imm) s = .next (s.advanceIp.writeReg r (movImm s.cfg imm)) := by
  simp [exec, execMov]

/-- Zero-extension keeps the immediate's unsigned value (the spec's decision D6). -/
theorem movImm_toNat {c : Config} (h : c.immExt = .zext) (imm : Imm) : (movImm c imm).toNat = imm.toNat := by
  rw [movImm, h]
  exact BitVec.toNat_setWidth_of_le (by decide)

/-- Sign-extension keeps the immediate's signed value (the spec's decision D6). -/
theorem movImm_toInt {c : Config} (h : c.immExt = .sext) (imm : Imm) : (movImm c imm).toInt = imm.toInt := by
  rw [movImm, h]
  exact BitVec.toInt_signExtend_of_le (by decide)

/-- Settles O25: `mov` writes `movImm`, which keeps the value the immediate is read with. -/
theorem movLoadsTheImmediate : Obligations.MovLoadsTheImmediate := by
  intro r m2 imm s
  refine ⟨_, exec_mov_mask r m2 imm s, fun hz => ?_, fun hs => ?_, onlyRegister_advanceIp_writeReg r _ s⟩
  · rw [State.readReg_writeReg_same, movImm_toNat hz]
  · rw [State.readReg_writeReg_same, movImm_toInt hs]

/-! ### `sto` -/

/-- The bytes of a word in each byte order, the lowest address first (20_memory.md R42). -/
theorem wordBytes_getElem (o : ByteOrder) (w : Word) {k : Nat} (hk : k < 8) :
    (wordBytes o w)[k]'(by simpa using hk) =
      match o with
      | .little => (w >>> (8 * k)).setWidth 8
      | .big => (w >>> (56 - 8 * k)).setWidth 8 := by
  cases o with
  | little => interval_cases k <;> rfl
  | big => interval_cases k <;> rfl

/-- Settles O26: the address passes the check, so `sto` stores the register's word there (`exec_sto_of_checkAddr`). -/
theorem stoWritesEightBytes : Obligations.StoWritesEightBytes := by
  intro r m2 imm s ⟨_, hmem, _⟩ hs hle hmod
  have hc : checkAddr (stoAddr imm) = none := (checkAddr_none_iff _).mpr (stoAddr_toNat imm ▸ ⟨hle, hmod⟩)
  refine ⟨_, exec_sto_of_checkAddr hs hc r m2, fun k hk => ?bytes, stoAddr_toNat imm,
    fun c hout => Memory.read_writeWord_of_outside _ _ _ c _ hout, rfl, fun _ => rfl, rfl, ⟨rfl, rfl, rfl⟩,
    ⟨rfl, rfl, rfl⟩, rfl⟩
  case bytes =>
    rw [State.setMem_mem, Memory.read_writeWord_inside _ _ _ k _ hmem (lt_memSize_of_checkAddr _ hc) hk]
    exact wordBytes_getElem _ _ hk

/-- The meaning of a `sto` whose address fails the check: the fault, and no byte written (43_move_store_io.md R164). -/
theorem exec_sto_of_checkAddr_fault {s : State} {imm : Imm} {f : FaultClass} (hs : s.cfg.stoImplemented = true)
    (hc : checkAddr (stoAddr imm) = some f) (r : Reg) (m2 : Byte) :
    exec (.sto r.mask m2 imm) s = .next (s.advanceIp.raise f) := by
  simp [exec, execSto, hs, hc]

/-- Settles O27: the check's two classes in numbers, and `exec_sto_of_checkAddr_fault` for each. -/
theorem badStoAddressWritesNothing : Obligations.BadStoAddressWritesNothing := by
  intro r m2 imm s hs
  rw [← stoAddr_toNat imm]
  refine ⟨fun hlt => ?addr, fun hle hmod => ?misalign⟩
  case addr =>
    exact ⟨_, exec_sto_of_checkAddr_fault hs ((checkAddr_addr_iff _).mpr hlt) r m2, raises_advanceIp_raise .addr s⟩
  case misalign =>
    exact ⟨_, exec_sto_of_checkAddr_fault hs ((checkAddr_misalign_iff _).mpr ⟨hle, hmod⟩) r m2,
      raises_advanceIp_raise .misalign s⟩

/-- Dispatch finds no handler before any field is resolved (the spec's decision D11). -/
theorem exec_sto_of_no_handler {s : State} (hs : s.cfg.stoImplemented = false) (m1 m2 : Byte) (imm : Imm) :
    exec (.sto m1 m2 imm) s = .next s.unknownInstruction := by
  simp [exec, execSto, hs]

/-- Settles O28. -/
theorem stoWithoutHandlerRaisesUnkinsn : Obligations.StoWithoutHandlerRaisesUnkinsn :=
  fun m1 m2 imm s hs => ⟨_, exec_sto_of_no_handler hs m1 m2 imm, raises_unknownInstruction s⟩

/-! ### `ior` -/

/-- An `ior` with a byte offered takes it (20_memory.md R52). -/
theorem exec_ior_of_byte {s : State} {b : Byte} {rest : List Byte} (hin : s.input = b :: rest) (r : Reg) (m2 : Byte)
    (imm : Imm) :
    exec (.ior r.mask m2 imm) s = .next ((s.advanceIp.setInput rest).writeReg r (b.setWidth 64)) := by
  simp [exec, execIor, State.inRead, hin]

/-- An `ior` at end-of-stream reads `eofValue` and leaves the end where it is (20_memory.md R52). -/
theorem exec_ior_of_end {s : State} (hin : s.input = []) (he : s.inputEnded = true) (r : Reg) (m2 : Byte)
    (imm : Imm) : exec (.ior r.mask m2 imm) s = .next (s.advanceIp.writeReg r Config.eofValue) := by
  simp [exec, execIor, State.inRead, hin, he]

/-- Settles O30: by `exec_ior_of_byte`, and zero-extension keeps the byte's value. -/
theorem iorTakesTheNextByte : Obligations.IorTakesTheNextByte := by
  intro r m2 imm s b rest hin
  refine ⟨_, exec_ior_of_byte hin r m2 imm, ?value, rfl, rfl, rfl,
    fun q hq => (s.advanceIp.setInput rest).readReg_writeReg_of_ne r q _ hq, rfl, rfl, ⟨rfl, rfl, rfl⟩,
    fun _ => rfl, rfl⟩
  case value =>
    rw [State.readReg_writeReg_same]
    exact BitVec.toNat_setWidth_of_le (by decide)

/-- Settles O31: by `exec_ior_of_end`, which writes one register. -/
theorem iorAtEndOfStreamGivesEofValue : Obligations.IorAtEndOfStreamGivesEofValue :=
  fun r m2 imm s hin he => ⟨_, exec_ior_of_end hin he r m2 imm, State.readReg_writeReg_same _ r _,
    onlyRegister_advanceIp_writeReg r _ s⟩

/-- Settles O32. -/
theorem iorWithoutInputHolds : Obligations.IorWithoutInputHolds :=
  fun r m2 imm _ hin he => exec_ior_of_no_item hin he r m2 imm

/-! ### `iow` -/

theorem exec_iow_mask (r : Reg) (m2 : Byte) (imm : Imm) (s : State) :
    exec (.iow r.mask m2 imm) s = .next (s.advanceIp.outWrite (byteAt (s.readReg r) 0)) := by
  simp [exec, execIow]

theorem byteAt_zero_toNat (w : Word) : (byteAt w 0).toNat = w.toNat % 256 := by
  simp [byteAt, BitVec.extractLsb'_toNat]

/-- Settles O33: `iow` appends byte 0 of the register. -/
theorem iowAppendsTheLowByte : Obligations.IowAppendsTheLowByte :=
  fun r m2 imm s => ⟨_, exec_iow_mask r m2 imm s, ⟨_, rfl, byteAt_zero_toNat _⟩, rfl, rfl, fun _ => rfl, rfl, rfl,
    ⟨rfl, rfl, rfl⟩, fun _ => rfl, rfl⟩

end Sys2Proof.Machine
end

section
/-! PROOFS. The stream ports (43_move_store_io.md R168, R171): when each carries a value, and that the step does what
they show. -/

namespace Sys2Proof.Machine

/-! ### When the ports carry a value -/

theorem iorTarget_eq_some {s : State} {r : Reg} :
    s.iorTarget = some r ↔ ∃ (m2 : Byte) (imm : Imm), s.ticking = some (.ior r.mask m2 imm) := by
  constructor
  · intro h
    unfold State.iorTarget at h
    split at h
    next m1 m2 imm hi => exact ⟨m2, imm, mask_of_resolve m1 r h ▸ hi⟩
    next => simp at h
  · rintro ⟨m2, imm, hi⟩
    simp [State.iorTarget, hi]

theorem outByte_eq_some {s : State} {b : Byte} :
    s.outByte = some b ↔ ∃ (r : Reg) (m2 : Byte) (imm : Imm),
      s.ticking = some (.iow r.mask m2 imm) ∧ byteAt (s.readReg r) 0 = b := by
  constructor
  · intro h
    unfold State.outByte at h
    split at h
    next m1 m2 imm hi =>
      obtain ⟨r, hr, hb⟩ := Option.map_eq_some_iff.mp h
      exact ⟨r, m2, imm, mask_of_resolve m1 r hr ▸ hi, hb⟩
    next => simp at h
  · rintro ⟨r, m2, imm, hi, hb⟩
    simp [State.outByte, hi, hb]

/-- An item is available: a byte, or the end of the stream (43_move_store_io.md R168). -/
theorem inValid_iff {s : State} : s.inValid = true ↔ s.input ≠ [] ∨ s.inputEnded = true := by
  simp [State.inValid]

theorem inTake_iff {s : State} :
    s.inTake = true ↔ (∃ r, s.iorTarget = some r) ∧ (s.input ≠ [] ∨ s.inputEnded = true) := by
  rw [State.inTake, Bool.and_eq_true, inValid_iff, Option.isSome_iff_exists]

theorem holding_iff_iorTarget {s : State} :
    s.holding = true ↔ (∃ r, s.iorTarget = some r) ∧ s.input = [] ∧ s.inputEnded = false := by
  simp only [holding_iff, iorTarget_eq_some]

theorem inValid_eq_false_of_holding {s : State} (h : s.holding = true) : s.inValid = false := by
  rw [State.holding, Bool.and_eq_true, Bool.not_eq_true'] at h
  exact h.2

/-- The core takes an item or holds, never both (43_move_store_io.md R168). -/
theorem inTake_eq_false_of_holding {s : State} (h : s.holding = true) : s.inTake = false := by
  rw [State.inTake, inValid_eq_false_of_holding h, Bool.and_false]

theorem holding_eq_false_of_inTake {s : State} (h : s.inTake = true) : s.holding = false :=
  Bool.eq_false_iff.mpr fun hh => by simp [inTake_eq_false_of_holding hh] at h

/-- An `ior` that does not complete holds (43_move_store_io.md R168). -/
theorem holding_of_no_inTake {s : State} {r : Reg} (hr : s.iorTarget = some r) (ht : s.inTake = false) :
    s.holding = true := by
  simpa [State.inTake, State.holding, hr] using ht

/-! ### The step does what the ports show -/

/-- A core that holds stays as it is (10_state.md R36). -/
theorem eq_of_step_of_holding {s t : State} (h : step s = .next t) (hh : s.holding = true) : t = s := by
  obtain ⟨⟨r, m2, imm, hi⟩, hin, he⟩ := holding_iff.mp hh
  rw [step_of_ticking hi, exec_ior_of_no_item hin he] at h
  exact (Host.Outcome.next.inj h).symm

/-- `out_valid` with a byte: the step appends that byte (43_move_store_io.md R171). -/
theorem output_of_outByte {s t : State} {b : Byte} (h : step s = .next t) (hb : s.outByte = some b) :
    t.output = s.output ++ [b] := by
  obtain ⟨r, m2, imm, hi, rfl⟩ := outByte_eq_some.mp hb
  rw [step_of_ticking hi, exec_iow_mask] at h
  exact Host.Outcome.next.inj h ▸ rfl

/-- `out_valid` low: the step appends nothing (43_move_store_io.md R171). -/
theorem output_of_no_outByte {s t : State} (h : step s = .next t) (hb : s.outByte = none) : t.output = s.output := by
  obtain ⟨hout, -⟩ := streamsMoveOneItemInOrder s t h
  refine hout.resolve_right fun ⟨r, m2, imm, b, hi, _⟩ => ?_
  simp [outByte_eq_some.mpr ⟨r, m2, imm, hi, rfl⟩] at hb

/-- `in_take` low: the step takes no byte (43_move_store_io.md R168). -/
theorem input_of_no_inTake {s t : State} (h : step s = .next t) (ht : s.inTake = false) : t.input = s.input := by
  obtain ⟨-, hin, -⟩ := streamsMoveOneItemInOrder s t h
  refine hin.resolve_right fun ⟨r, m2, imm, b, hi, hb⟩ => ?_
  have htarget : s.iorTarget = some r := iorTarget_eq_some.mpr ⟨m2, imm, hi⟩
  have htake : s.inTake = true := inTake_iff.mpr ⟨⟨r, htarget⟩, .inl (by simp [hb])⟩
  simp [ht] at htake

/-- What the step of an `ior` that completes does, as the input ports show it (43_move_store_io.md R168). -/
def TakesShownItem (r : Reg) (s t : State) : Prop :=
  (∃ b, s.inValid = true ∧ s.inEof = false ∧ s.inByte = some b ∧ s.input = b :: t.input ∧
    t.readReg r = b.setWidth 64) ∨
  (s.inValid = true ∧ s.inEof = true ∧ t.input = s.input ∧ t.readReg r = Config.eofValue)

/-- `in_take` high: the step completes the `ior` with the byte shown, or at end-of-stream. -/
theorem takesShownItem_of_inTake {s t : State} {r : Reg} (h : step s = .next t) (hr : s.iorTarget = some r)
    (ht : s.inTake = true) : t.ip = s.ip + 8#64 ∧ TakesShownItem r s t := by
  obtain ⟨m2, imm, hi⟩ := iorTarget_eq_some.mp hr
  obtain ⟨-, hitem⟩ := inTake_iff.mp ht
  rw [step_of_ticking hi] at h
  cases hin : s.input with
  | cons b rest =>
    rw [exec_ior_of_byte hin] at h
    obtain rfl := Host.Outcome.next.inj h
    exact ⟨rfl, .inl ⟨b, by simp [State.inValid, hin], by simp [State.inEof, hin], by simp [State.inByte, hin], hin,
      State.readReg_writeReg_same _ r _⟩⟩
  | nil =>
    have he : s.inputEnded = true := hitem.resolve_left (absurd hin)
    rw [exec_ior_of_end hin he] at h
    obtain rfl := Host.Outcome.next.inj h
    exact ⟨rfl, .inr ⟨by simp [State.inValid, he], by simp [State.inEof, hin, he], rfl,
      State.readReg_writeReg_same _ r _⟩⟩

/-- Settles O50: `iorTarget_eq_some`, `inTake_iff` and `holding_iff_iorTarget` say when each port value is there, and an
`ior` takes the item shown (`takesShownItem_of_inTake`) or holds. -/
theorem portsAgreeWithTheStep : Obligations.PortsAgreeWithTheStep := by
  refine ⟨fun s r => ?target, fun s => inTake_iff, fun s => holding_iff_iorTarget, fun s t h =>
    ⟨fun b => output_of_outByte h, output_of_no_outByte h, fun r hr => ?ior, fun ht => (inTake_iff.mp ht).1,
      input_of_no_inTake h, fun hh => ⟨inTake_eq_false_of_holding hh, eq_of_step_of_holding h hh⟩⟩⟩
  case target => simp only [iorTarget_eq_some, ticking_eq_some, exists_and_left]
  case ior =>
    cases ht : s.inTake with
    | true => exact .inl ⟨rfl, holding_eq_false_of_inTake ht, takesShownItem_of_inTake h hr ht⟩
    | false =>
      have hh := holding_of_no_inTake hr ht
      exact .inr ⟨hh, rfl, inValid_eq_false_of_holding hh, eq_of_step_of_holding h hh⟩

end Sys2Proof.Machine
end

section
/-! PROOFS. `hlt`, `nop` and the reserved opcodes (44_system.md R180 to R182). -/

namespace Sys2Proof.Machine

/-! ### The reserved opcodes -/

theorem exec_raises_of_reserved {i : Instr} (s : State) (h : i.form = .reserved) :
    ∃ t, exec i s = .next t ∧ Raises .unkinsn (s.ip + 8#64) s t :=
  ⟨_, exec_of_reserved s h, raises_unknownInstruction s⟩

/-- Settles O10: the three have no handler, whatever their fields hold, and what a line reads is canonical, hence
implemented. -/
theorem reservedOpcodesRaiseUnkinsn : Obligations.ReservedOpcodesRaiseUnkinsn :=
  ⟨fun s _ _ _ => ⟨exec_raises_of_reserved s rfl, exec_raises_of_reserved s rfl, exec_raises_of_reserved s rfl⟩,
    fun _ _ hline => (canonicalForm_of_assembleLine hline).implemented⟩

/-! ### `hlt` -/

theorem exec_hlt (m1 m2 : Byte) (imm : Imm) (s : State) : exec (.hlt m1 m2 imm) s = .next s.advanceIp.setHalt := by
  simp only [exec, execHlt, withN_eq]

theorem status_advanceIp_setHalt {s : State} (hr : s.status = .running) : s.advanceIp.setHalt.status = .halted := by
  obtain ⟨hundef, hef, -⟩ := (status_running s).mp hr
  exact status_halted_of hundef hef (State.setHalt_halt _)

/-- Settles O34: `exec_hlt` names the next state, which differs from the first in `HALT` and `IP`. -/
theorem hltSetsHalt : Obligations.HltSetsHalt :=
  fun m1 m2 imm s => ⟨_, exec_hlt m1 m2 imm s, rfl, rfl, fun _ => rfl, rfl, rfl, rfl, fun _ => rfl, ⟨rfl, rfl, rfl⟩,
    rfl, status_advanceIp_setHalt⟩

/-! ### `nop` -/

theorem exec_nop (m1 m2 : Byte) (imm : Imm) (s : State) : exec (.nop m1 m2 imm) s = .next s.advanceIp := by
  simp only [exec, execNop, withN_eq]

/-- Settles O35: by `exec_nop`, and an advance of `IP` changes nothing else. -/
theorem nopOnlyAdvances : Obligations.NopOnlyAdvances :=
  fun m1 m2 imm s => ⟨_, exec_nop m1 m2 imm s, State.advanceIp_ip s, onlyIp_setIp s _⟩

end Sys2Proof.Machine
end

section
/-! PROOFS. The faults of a tick (60_exceptions.md R202 to R208): what raises each class, and that a fault changes nothing
but `EF` and the advance of `IP`. -/

namespace Sys2Proof.Machine

/-! ### What raises a fault -/

/-- The causes of a fault once the fetch address has passed the access check, each with the class it raises: no operation
has the opcode, the operation has no handler, a register field that is read is bad, or the address of a `sto` fails the
check (60_exceptions.md R202 to R205; the order of the checks is R207). -/
inductive FaultAfterFetch (s : State) : FaultClass → Prop where
  | noSuchOpcode (hc : checkAddr s.ip = none) (hcur : s.current = none) : FaultAfterFetch s .unkinsn
  | reserved (i : Instr) (hcur : s.current = some i) (hform : i.form = .reserved) : FaultAfterFetch s .unkinsn
  | stoWithoutHandler (m1 m2 : Byte) (imm : Imm) (hcur : s.current = some (.sto m1 m2 imm))
      (hs : s.cfg.stoImplemented = false) : FaultAfterFetch s .unkinsn
  | badField (i : Instr) (hcur : s.current = some i) (hi : i.opcode.implemented = true)
      (hs : i.opcode = .sto → s.cfg.stoImplemented = true) (hbad : i.wellFormed = false) : FaultAfterFetch s .badreg
  | storeAddress (r : Reg) (m2 : Byte) (imm : Imm) (hcur : s.current = some (.sto r.mask m2 imm))
      (hs : s.cfg.stoImplemented = true) (f : FaultClass) (hc : checkAddr (stoAddr imm) = some f) : FaultAfterFetch s f

/-- An instruction that changes `EF` has one of the causes. -/
theorem Effect.faultAfterFetch {s t : State} {i : Instr} (h : Effect s i t) (hcur : s.current = some i)
    (hne : t.ef ≠ s.ef) : ∃ f, FaultAfterFetch s f ∧ t = s.advanceIp.raise f := by
  cases h with
  | noHandler h =>
    refine ⟨.unkinsn, ?_, rfl⟩
    obtain hform | ⟨hop, hs⟩ := h
    · exact .reserved i hcur hform
    · exact .stoWithoutHandler i.reg1 i.reg2 i.imm (hcur.trans (congrArg some (Instr.eq_build_of_opcode hop))) hs
  | badRegister hbad hi hs => exact ⟨.badreg, .badField i hcur hi hs hbad, rfl⟩
  | storeFault hop hs r hr f hc =>
    have hi : i = .sto r.mask i.reg2 i.imm := mask_of_resolve _ _ hr ▸ Instr.eq_build_of_opcode hop
    exact ⟨f, .storeAddress r i.reg2 i.imm (hcur.trans (congrArg some hi)) hs f hc, rfl⟩
  | _ => exact absurd rfl hne

/-- A step that changes `EF` is a running core's: the fetch fails and `IP` stays, or a cause after the fetch raises its
class with `IP` advanced. -/
theorem step_fault {s t : State} (h : step s = .next t) (hne : t.ef ≠ s.ef) :
    s.status = .running ∧ ∃ f, (checkAddr s.ip = some f ∧ t = s.raise f) ∨
      (checkAddr s.ip = none ∧ FaultAfterFetch s f ∧ t = s.advanceIp.raise f) := by
  cases step_effect s t h with
  | stopped => exact absurd rfl hne
  | fetchFault hr f hc => exact ⟨hr, f, .inl ⟨hc, rfl⟩⟩
  | noSuchOpcode hr hc hcur => exact ⟨hr, .unkinsn, .inr ⟨hc, .noSuchOpcode hc hcur, rfl⟩⟩
  | executed hr hc i hcur _ he =>
    obtain ⟨f, hf, rfl⟩ := he.faultAfterFetch hcur hne
    exact ⟨hr, f, .inr ⟨hc, hf, rfl⟩⟩

/-! ### Faults are precise -/

/-- Settles O39: by `step_fault`; `State.raise` ORs a bit into `EF` and does nothing else. -/
theorem faultsArePrecise : Obligations.FaultsArePrecise := by
  intro s t h hne
  obtain ⟨hr, f, ⟨hc, rfl⟩ | ⟨hc, -, rfl⟩⟩ := step_fault h hne
  · have hbad : ¬(s.ip.toNat ≤ 0xFFFFF8 ∧ s.ip.toNat % 8 = 0) := by simp [← checkAddr_none_iff, hc]
    exact ⟨f, raises_raise f s, status_raise hr f, .inl ⟨rfl, by omega⟩⟩
  · exact ⟨f, raises_advanceIp_raise f s, status_raise (s := s.advanceIp) hr f,
      .inr ⟨rfl, (checkAddr_none_iff s.ip).mp hc⟩⟩

/-! ### A cause raises its class -/

theorem bad_of_wellFormed_false {i : Instr} (h : i.wellFormed = false) :
    (i.form.readsReg1 = true ∧ resolve i.reg1 = none) ∨ (i.form.readsReg2 = true ∧ resolve i.reg2 = none) := by
  simpa only [Instr.wellFormed, oneHot_eq_resolve, Bool.and_eq_false_iff, Bool.or_eq_false_iff, Bool.not_eq_false',
    Option.isSome_eq_false_iff, Option.isNone_iff_eq_none] using h

/-- A word with an opcode outside the enumeration has no handler (40_execution_cycle.md R105). -/
theorem step_of_current_none {s : State} (hr : s.status = .running) (hc : checkAddr s.ip = none)
    (hcur : s.current = none) : step s = .next s.unknownInstruction := by
  have hf := fetch_of_checkAddr s hc
  cases hd : decode s.cfg (Memory.readWord s.cfg.byteOrder s.mem s.ip.toNat) with
  | ok i => simp [State.current, hf, hd] at hcur
  | error e => simp [step_eq_tick hr, tick, hf, hd]

theorem FaultAfterFetch.step_eq {s : State} {f : FaultClass} (h : FaultAfterFetch s f) (hr : s.status = .running) :
    step s = .next (s.advanceIp.raise f) := by
  cases h with
  | noSuchOpcode hc hcur => exact step_of_current_none hr hc hcur
  | reserved i hcur hform => exact (step_of_current s i hr hcur).trans (exec_of_reserved s hform)
  | stoWithoutHandler m1 m2 imm hcur hs =>
    exact (step_of_current s _ hr hcur).trans (exec_sto_of_no_handler hs m1 m2 imm)
  | badField i hcur hi hs hbad =>
    exact (step_of_current s i hr hcur).trans (exec_of_bad_field hi hs (bad_of_wellFormed_false hbad))
  | storeAddress r m2 imm hcur hs _ hc =>
    exact (step_of_current s _ hr hcur).trans (exec_sto_of_checkAddr_fault hs hc r m2)

theorem ef_raise_of_running {s : State} (hr : s.status = .running) (f : FaultClass) :
    (s.raise f).ef = faultMask s.cfg f := by
  obtain ⟨-, hef0, -⟩ := (status_running s).mp hr
  simp [State.raise, hef0]

/-- The classes have different bits, so the bit a running core's tick leaves in `EF` tells the class of its cause. -/
theorem ef_eq_faultMask_iff {s t : State} (hwf : s.cfg.wf = true) (hr : s.status = .running) (h : step s = .next t)
    (f : FaultClass) : t.ef = faultMask s.cfg f ↔ checkAddr s.ip = some f ∨ FaultAfterFetch s f := by
  constructor
  · intro hef
    obtain ⟨-, hef0, -⟩ := (status_running s).mp hr
    have hne : t.ef ≠ s.ef := by rw [hef, hef0]; exact faultMask_ne_zero s.cfg f
    obtain ⟨-, g, ⟨hc, rfl⟩ | ⟨-, hg, rfl⟩⟩ := step_fault h hne
    · obtain rfl := faultMask_injective s.cfg hwf g f ((ef_raise_of_running hr g).symm.trans hef)
      exact .inl hc
    · obtain rfl := faultMask_injective s.cfg hwf g f ((ef_raise_of_running (s := s.advanceIp) hr g).symm.trans hef)
      exact .inr hg
  · rintro (hc | hg)
    · obtain rfl := Host.Outcome.next.inj ((step_of_checkAddr hr hc).symm.trans h)
      exact ef_raise_of_running hr f
    · obtain rfl := Host.Outcome.next.inj ((hg.step_eq hr).symm.trans h)
      exact ef_raise_of_running (s := s.advanceIp) hr f

/-! ### The causes of each class -/

/-- ADDR and MISALIGN come, after the fetch, from a `sto` alone (60_exceptions.md R202, R203). -/
theorem faultAfterFetch_address_iff {s : State} {f : FaultClass} (hf : f = .addr ∨ f = .misalign) :
    FaultAfterFetch s f ↔ ∃ (r : Reg) (m2 : Byte) (imm : Imm), s.current = some (.sto r.mask m2 imm) ∧
      s.cfg.stoImplemented = true ∧ checkAddr (stoAddr imm) = some f := by
  constructor
  · intro h
    cases h with
    | storeAddress r m2 imm hcur hs _ hc => exact ⟨r, m2, imm, hcur, hs, hc⟩
    | _ => simp at hf
  · rintro ⟨r, m2, imm, hcur, hs, hc⟩
    exact .storeAddress r m2 imm hcur hs f hc

theorem checkAddr_ne_unkinsn (a : Word) : checkAddr a ≠ some .unkinsn := fun h => by
  simpa using checkAddr_eq_some a _ h

theorem eq_reserved_of_form {i : Instr} (h : i.form = .reserved) :
    ∃ (m1 m2 : Byte) (imm : Imm), i = .jne m1 m2 imm ∨ i = .loa m1 m2 imm ∨ i = .sip m1 m2 imm := by
  cases i with
  | jne m1 m2 imm => exact ⟨m1, m2, imm, .inl rfl⟩
  | loa m1 m2 imm => exact ⟨m1, m2, imm, .inr (.inl rfl)⟩
  | sip m1 m2 imm => exact ⟨m1, m2, imm, .inr (.inr rfl)⟩
  | _ => cases h

/-- UNKINSN comes from an opcode without a name, a reserved one, or a `sto` without a handler (60_exceptions.md R204). -/
theorem faultAfterFetch_unkinsn_iff (s : State) :
    FaultAfterFetch s .unkinsn ↔
      (checkAddr s.ip = none ∧ s.current = none) ∨
      (∃ (m1 m2 : Byte) (imm : Imm), s.current = some (.jne m1 m2 imm) ∨ s.current = some (.loa m1 m2 imm) ∨
        s.current = some (.sip m1 m2 imm)) ∨
      ∃ (m1 m2 : Byte) (imm : Imm), s.current = some (.sto m1 m2 imm) ∧ s.cfg.stoImplemented = false := by
  constructor
  · intro h
    cases h with
    | noSuchOpcode hc hcur => exact .inl ⟨hc, hcur⟩
    | reserved i hcur hform =>
      obtain ⟨m1, m2, imm, hi⟩ := eq_reserved_of_form hform
      exact .inr (.inl ⟨m1, m2, imm, by simpa only [hcur, Option.some.injEq] using hi⟩)
    | stoWithoutHandler m1 m2 imm hcur hs => exact .inr (.inr ⟨m1, m2, imm, hcur, hs⟩)
    | storeAddress _ _ imm _ _ _ hc => exact absurd hc (checkAddr_ne_unkinsn (stoAddr imm))
  · rintro (⟨hc, hcur⟩ | ⟨_, _, _, hcur | hcur | hcur⟩ | ⟨m1, m2, imm, hcur, hs⟩)
    · exact .noSuchOpcode hc hcur
    · exact .reserved _ hcur rfl
    · exact .reserved _ hcur rfl
    · exact .reserved _ hcur rfl
    · exact .stoWithoutHandler m1 m2 imm hcur hs

/-! ### A jump to a misaligned address -/

/-- A jump with a good register field writes `IP` and nothing else, taken or not (42_control_transfer.md R140). -/
theorem exec_jump_eq_setIp {i : Instr} {r : Reg} (s : State) (hj : i.opcode ∈ [.jmp, .jeq, .jlt, .jle, .jgt, .jge])
    (hr : i.reg1 = r.mask) : ∃ v, exec i s = .next (s.setIp v) := by
  cases i with
  | jmp _ m2 imm => exact ⟨_, hr ▸ exec_jmp_mask r m2 imm s⟩
  | jeq | jlt | jle | jgt | jge => exact ⟨_, hr ▸ conditionalJump_mask r _ s⟩
  | _ => simp [Instr.opcode] at hj

/-- Settles O11: `ef_eq_faultMask_iff` for each of the three classes, with its causes in numbers; and a jump leaves the
core running with the target in `IP`, which the next fetch checks. -/
theorem addressAndOpcodeFaultCauses : Obligations.AddressAndOpcodeFaultCauses := by
  refine ⟨fun s t ⟨hwf, _⟩ hr h => ⟨?addr, ?misalign, ?unkinsn⟩, fun i s t r hr hj h1 h hip hle hmod => ?jump⟩
  case addr =>
    simp only [ef_eq_faultMask_iff hwf hr h, faultAfterFetch_address_iff (.inl rfl), checkAddr_addr_iff, stoAddr_toNat]
  case misalign =>
    simp only [ef_eq_faultMask_iff hwf hr h, faultAfterFetch_address_iff (.inr rfl), checkAddr_misalign_iff,
      stoAddr_toNat]
  case unkinsn =>
    simp only [ef_eq_faultMask_iff hwf hr h, faultAfterFetch_unkinsn_iff, checkAddr_ne_unkinsn, checkAddr_none_iff,
      false_or, and_assoc]
  case jump =>
    obtain ⟨v, hv⟩ := exec_jump_eq_setIp s hj h1
    obtain rfl := Host.Outcome.next.inj (hv.symm.trans h)
    obtain rfl : v = s.readReg r := hip
    obtain ⟨u, hu, hraise, -⟩ := step_raises_of_checkAddr (s := s.setIp (s.readReg r)) hr
      ((checkAddr_misalign_iff (s.readReg r)).mpr ⟨hle, hmod⟩)
    exact ⟨u, hu, hraise⟩

end Sys2Proof.Machine
end

section
/-! PROOFS. Reset, the image load and launch (70_reset_and_hazards.md R230 to R236): what each leaves in the state, and
that the invariant holds from the start. -/

namespace Sys2Proof.Machine

/-! ### Reset -/

/-- Reset is synchronous: an edge with `rst` asserted runs no tick (70_reset_and_hazards.md R230). -/
theorem clockEdge_true (s : State) : clockEdge true s = .next s.resetCore := rfl

@[simp] theorem State.resetCore_readReg (s : State) (r : Reg) : s.resetCore.readReg r = 0#64 := RegFile.read_zero r

theorem status_resetCore (s : State) : s.resetCore.status = .running := (status_running _).mpr ⟨rfl, rfl, rfl⟩

/-- Settles O54: the edge answers `State.resetCore`, which takes from `s` the configuration and the streams only. -/
theorem resetClearsEveryState : Obligations.ResetClearsEveryState :=
  fun s => ⟨s.resetCore, clockEdge_true s, s.resetCore_readReg, rfl, rfl, rfl, rfl, rfl, fun _ => rfl, status_resetCore s,
    ⟨rfl, rfl, rfl⟩, rfl⟩

/-! ### The image load -/

theorem loadImage_eq_none {s : State} {image : List Byte} : s.loadImage image = none ↔ memSize < image.length := by
  simp [State.loadImage]

theorem launch_eq_some {c : Config} {image input : List Byte} {ended : Bool} {s : State} :
    launch c image input ended = some s ↔ image.length ≤ memSize ∧
      ({ State.resetWith c with input := input, inputEnded := ended } : State).setMem (imageMemory 0 image) = s :=
  loadImage_eq_some

/-- Settles O53: the image load of the launch answers no state. -/
theorem oversizedImageIsRefused : Obligations.OversizedImageIsRefused :=
  fun _ _ _ _ hlen => loadImage_eq_none.mpr hlen

theorem read_imageMemory_zero {image : List Byte} (hlen : image.length ≤ memSize) (a : Nat) :
    Memory.read (imageMemory 0 image) a = image.getD a 0#8 := by
  simpa using read_imageMemory 0 a image (by simpa using hlen)

/-- Settles O52: the loaded memory reads as `read_imageMemory_zero` says, within the image and past it; a step that changes
memory ticks a `sto` (`step_mem`). -/
theorem imageIsLoadedVerbatim : Obligations.ImageIsLoadedVerbatim := by
  refine ⟨fun s image hlen => ⟨_, loadImage_eq_some.mpr ⟨hlen, rfl⟩, fun a ha => ?inside, fun a ha => ?past, rfl⟩,
    fun s t h hsto => ?step⟩
  case inside => exact (read_imageMemory_zero hlen a).trans (List.getD_eq_getElem image 0#8 ha)
  case past => exact (read_imageMemory_zero hlen a).trans (List.getD_eq_default image 0#8 ha)
  case step =>
    obtain hmem | ⟨r, m2, imm, hi, -⟩ := step_mem h
    · exact hmem
    · exact absurd hi (hsto r.mask m2 imm)

/-! ### The invariant at the start of a run -/

/-- A running core has no stop set, so with `AF` empty too it meets the invariant when its configuration is allowed and its
memory canonical. -/
theorem inv_of_running {s : State} (hcfg : s.cfg.wf = true) (hmem : Memory.wf s.mem = true) (haf : s.af = 0#8)
    (hr : s.status = .running) : s.Inv := by
  obtain ⟨hundef, hef, hhalt⟩ := (status_running s).mp hr
  refine ⟨hcfg, hmem, ?afClean, (efSingle_iff s).mpr (.inl hef), ?oneStop⟩
  case afClean => simp [State.afClean, haf]
  case oneStop => simp [State.oneStop, hundef, hef, hhalt]

theorem status_resetWith (c : Config) : (State.resetWith c).status = .running :=
  (status_running _).mpr ⟨rfl, rfl, rfl⟩

/-- Settles O37: reset and launch leave the core running with `AF` empty (`inv_of_running`); the memory of an image that
fits is canonical. -/
theorem resetAndLaunchMeetTheInvariant : Obligations.ResetAndLaunchMeetTheInvariant := by
  refine ⟨inv_of_running (by decide) rfl rfl (status_resetWith _), fun c image input ended s hwf h => ?_⟩
  obtain ⟨hlen, rfl⟩ := launch_eq_some.mp h
  have hr := status_resetWith c
  exact ⟨inv_of_running hwf (imageMemory_wf image hlen) rfl hr, hr, rfl⟩

end Sys2Proof.Machine
end

section
/-! PROOFS. The words of the test vectors (95_test_vectors.md section 2): a word decodes to the one instruction it is the
encoding of, and to none when its opcode field is outside the map. -/

namespace Sys2Proof

/-- Under an injective map, decoding an instruction from a word and encoding it as that word are one thing
(30_encoding.md R72). -/
theorem decode_eq_ok_iff_encode_eq {c : Config} (h : c.opcodes.injective = true) {w : Word} {i : Instr} :
    decode c w = .ok i ↔ encode c i = w :=
  ⟨encode_of_decode, fun hw => hw ▸ decode_encode c h i⟩

theorem Config.opcodeOf_eq_none {c : Config} {v : Half} :
    c.opcodeOf v = none ↔ ∀ op : Opcode, c.opcodes.valueOf op ≠ v := by
  simp [Config.opcodeOf, Opcode.mem_all]

theorem decode_eq_noSuchOpcode {c : Config} {w : Word} {v : Half} :
    decode c w = .error (.noSuchOpcode v) ↔ c.opcodeOf v = none ∧ w.extractLsb' 16 16 = v := by
  change decodeFields c (splitFields w) = _ ↔ _ ∧ (splitFields w).opcode = v
  unfold decodeFields
  cases hop : c.opcodeOf (splitFields w).opcode with
  | some op =>
    have hne : ¬ (c.opcodeOf v = none ∧ (splitFields w).opcode = v) := by rintro ⟨hv, rfl⟩; simp [hop] at hv
    simp [hne]
  | none =>
    simp only [Except.error.injEq, DecodeError.noSuchOpcode.injEq]
    exact ⟨fun hv => ⟨hv ▸ hop, hv⟩, And.right⟩

/-- Settles O5: each accepted word is the encoding of its instruction under the default map, and no name of the map has
the value `0xFFFF`. -/
theorem specWordsDecode : Obligations.SpecWordsDecode := by
  have hinj : Config.default.opcodes.injective = true := by decide
  have hunassigned : ∀ op : Opcode, Config.default.opcodes.valueOf op ≠ 0xFFFF#16 := by
    intro op
    cases op <;> decide
  have hdec {w : Word} {i : Instr} (hw : encode Config.default i = w) : decode Config.default w = .ok i :=
    (decode_eq_ok_iff_encode_eq hinj).mpr hw
  exact ⟨hdec rfl, hdec rfl, hdec rfl, hdec rfl, hdec rfl, hdec rfl, hdec rfl, hdec rfl, hdec rfl, hdec rfl,
    decode_eq_noSuchOpcode.mpr ⟨Config.opcodeOf_eq_none.mpr hunassigned, rfl⟩⟩

end Sys2Proof
end
